-- ==== Sys2Proof/Word.lean ====
section
/-! DEFINITION. The widths of the machine's words. Every value is an unsigned integer of a stated width
(spec/00_scope.md section 6); there is no signed operation anywhere. -/

namespace Sys2Proof

/-- One byte: a memory cell, a general register, a timer, an immediate `kk`. -/
abbrev Byte := BitVec 8

/-- Sixteen bits: an instruction word, `I`, `PC`, a stack entry. -/
abbrev Word := BitVec 16

/-- A four-bit field of an instruction word: `x`, `y`, `n`. -/
abbrev Nibble := BitVec 4

/-- The twelve-bit address field `nnn`. -/
abbrev Addr := BitVec 12

/-- The sixteen-key snapshot of a cycle: bit `k` is 1 exactly when key `k` is down (R4). -/
abbrev Keys := BitVec 16

end Sys2Proof
end

