-- ==== Sys2Proof/Syntax.lean ====
section
/-! DEFINITION. The instruction set: one constructor per row of spec/opcode_table.json, in the table's order (R63). -/

namespace Sys2Proof

/-- The 34 instructions. Operand fields are the fields of the word (R61): `x`, `y`, `n` four bits, `kk` eight,
`nnn` twelve. The shifts keep the `y` field, which their words carry and their meanings do not use (R98, R100). -/
inductive Instr where
  /-- `00E0`, `CLS`: clear the framebuffer. -/
  | cls
  /-- `00EE`, `RET`: return from subroutine. -/
  | ret
  /-- `1nnn`, `JP nnn`: jump. -/
  | jp (nnn : Addr)
  /-- `2nnn`, `CALL nnn`: call subroutine. -/
  | call (nnn : Addr)
  /-- `3xkk`, `SE Vx, kk`: skip if equal to immediate. -/
  | seImm (x : Nibble) (kk : Byte)
  /-- `4xkk`, `SNE Vx, kk`: skip if not equal to immediate. -/
  | sneImm (x : Nibble) (kk : Byte)
  /-- `5xy0`, `SE Vx, Vy`: skip if registers equal. -/
  | seReg (x y : Nibble)
  /-- `6xkk`, `LD Vx, kk`: load immediate. -/
  | ldImm (x : Nibble) (kk : Byte)
  /-- `7xkk`, `ADD Vx, kk`: add immediate, no carry out. -/
  | addImm (x : Nibble) (kk : Byte)
  /-- `8xy0`, `LD Vx, Vy`: move. -/
  | ldReg (x y : Nibble)
  /-- `8xy1`, `OR Vx, Vy`: bitwise or. -/
  | or (x y : Nibble)
  /-- `8xy2`, `AND Vx, Vy`: bitwise and. -/
  | and (x y : Nibble)
  /-- `8xy3`, `XOR Vx, Vy`: bitwise exclusive or. -/
  | xor (x y : Nibble)
  /-- `8xy4`, `ADD Vx, Vy`: add with carry out. -/
  | addReg (x y : Nibble)
  /-- `8xy5`, `SUB Vx, Vy`: subtract `Vy` from `Vx`. -/
  | sub (x y : Nibble)
  /-- `8xy6`, `SHR Vx`: shift right by one. -/
  | shr (x y : Nibble)
  /-- `8xy7`, `SUBN Vx, Vy`: subtract `Vx` from `Vy`. -/
  | subn (x y : Nibble)
  /-- `8xyE`, `SHL Vx`: shift left by one. -/
  | shl (x y : Nibble)
  /-- `9xy0`, `SNE Vx, Vy`: skip if registers differ. -/
  | sneReg (x y : Nibble)
  /-- `Annn`, `LD I, nnn`: load index immediate. -/
  | ldI (nnn : Addr)
  /-- `Bnnn`, `JP V0, nnn`: jump with offset. -/
  | jpV0 (nnn : Addr)
  /-- `Cxkk`, `RND Vx, kk`: masked random byte. -/
  | rnd (x : Nibble) (kk : Byte)
  /-- `Dxyn`, `DRW Vx, Vy, n`: draw a sprite. -/
  | drw (x y n : Nibble)
  /-- `Ex9E`, `SKP Vx`: skip if the key is down. -/
  | skp (x : Nibble)
  /-- `ExA1`, `SKNP Vx`: skip if the key is up. -/
  | sknp (x : Nibble)
  /-- `Fx07`, `LD Vx, DT`: read the delay timer. -/
  | ldVxDt (x : Nibble)
  /-- `Fx0A`, `LD Vx, K`: wait for a key. -/
  | ldVxK (x : Nibble)
  /-- `Fx15`, `LD DT, Vx`: set the delay timer. -/
  | ldDtVx (x : Nibble)
  /-- `Fx18`, `LD ST, Vx`: set the sound timer. -/
  | ldStVx (x : Nibble)
  /-- `Fx1E`, `ADD I, Vx`: add register to index. -/
  | addI (x : Nibble)
  /-- `Fx29`, `LD F, Vx`: point `I` at a font glyph. -/
  | ldF (x : Nibble)
  /-- `Fx33`, `LD B, Vx`: store three decimal digits. -/
  | ldB (x : Nibble)
  /-- `Fx55`, `LD [I], Vx`: store registers `V0` to `Vx`. -/
  | ldMemVx (x : Nibble)
  /-- `Fx65`, `LD Vx, [I]`: load registers `V0` to `Vx`. -/
  | ldVxMem (x : Nibble)
  deriving DecidableEq, Repr

/-- The mnemonic of each instruction as spec/opcode_table.json spells it. -/
def Instr.mnemonic : Instr → String
  | .cls => "CLS"
  | .ret => "RET"
  | .jp _ => "JP"
  | .call _ => "CALL"
  | .seImm _ _ => "SE_IMM"
  | .sneImm _ _ => "SNE_IMM"
  | .seReg _ _ => "SE_REG"
  | .ldImm _ _ => "LD_IMM"
  | .addImm _ _ => "ADD_IMM"
  | .ldReg _ _ => "LD_REG"
  | .or _ _ => "OR"
  | .and _ _ => "AND"
  | .xor _ _ => "XOR"
  | .addReg _ _ => "ADD_REG"
  | .sub _ _ => "SUB"
  | .shr _ _ => "SHR"
  | .subn _ _ => "SUBN"
  | .shl _ _ => "SHL"
  | .sneReg _ _ => "SNE_REG"
  | .ldI _ => "LD_I"
  | .jpV0 _ => "JP_V0"
  | .rnd _ _ => "RND"
  | .drw _ _ _ => "DRW"
  | .skp _ => "SKP"
  | .sknp _ => "SKNP"
  | .ldVxDt _ => "LD_VX_DT"
  | .ldVxK _ => "LD_VX_K"
  | .ldDtVx _ => "LD_DT_VX"
  | .ldStVx _ => "LD_ST_VX"
  | .addI _ => "ADD_I"
  | .ldF _ => "LD_F"
  | .ldB _ => "LD_B"
  | .ldMemVx _ => "LD_MEM_VX"
  | .ldVxMem _ => "LD_VX_MEM"

end Sys2Proof
end

