-- ==== Sys2Proof/WellFormed.lean ====
section
/-! DEFINITION. What is well formed. The opcode map of spec/30_encoding.md rule R63 as data, the check it makes on a word
(`legalWord`), and the check on an instruction term. Sys2Proof/Decode.lean is written from the families of rules
R64 to R68, not from this table; that the two agree is a statement for the provers. -/

namespace Sys2Proof

/-- One row of the opcode map: a word `w` is that instruction exactly when `w & mask == pattern` (R63). -/
structure OpcodeRow where
  mnemonic : String
  mask : Word
  pattern : Word
  deriving DecidableEq, Repr

/-- The row's test on a word. -/
def OpcodeRow.accepts (r : OpcodeRow) (w : Word) : Bool := w &&& r.mask == r.pattern

/-- The rows of families 0 to 7. -/
def opcodeRowsLow : List OpcodeRow :=
 [⟨"CLS", 0xFFFF, 0x00E0⟩,
   ⟨"RET", 0xFFFF, 0x00EE⟩,
   ⟨"JP", 0xF000, 0x1000⟩,
   ⟨"CALL", 0xF000, 0x2000⟩,
   ⟨"SE_IMM", 0xF000, 0x3000⟩,
   ⟨"SNE_IMM", 0xF000, 0x4000⟩,
   ⟨"SE_REG", 0xF00F, 0x5000⟩,
   ⟨"LD_IMM", 0xF000, 0x6000⟩,
   ⟨"ADD_IMM", 0xF000, 0x7000⟩]

/-- The rows of family 8. -/
def opcodeRowsAlu : List OpcodeRow :=
 [⟨"LD_REG", 0xF00F, 0x8000⟩,
   ⟨"OR", 0xF00F, 0x8001⟩,
   ⟨"AND", 0xF00F, 0x8002⟩,
   ⟨"XOR", 0xF00F, 0x8003⟩,
   ⟨"ADD_REG", 0xF00F, 0x8004⟩,
   ⟨"SUB", 0xF00F, 0x8005⟩,
   ⟨"SHR", 0xF00F, 0x8006⟩,
   ⟨"SUBN", 0xF00F, 0x8007⟩,
   ⟨"SHL", 0xF00F, 0x800E⟩]

/-- The rows of families 9 to E. -/
def opcodeRowsHigh : List OpcodeRow :=
 [⟨"SNE_REG", 0xF00F, 0x9000⟩,
   ⟨"LD_I", 0xF000, 0xA000⟩,
   ⟨"JP_V0", 0xF000, 0xB000⟩,
   ⟨"RND", 0xF000, 0xC000⟩,
   ⟨"DRW", 0xF000, 0xD000⟩,
   ⟨"SKP", 0xF0FF, 0xE09E⟩,
   ⟨"SKNP", 0xF0FF, 0xE0A1⟩]

/-- The rows of family F. -/
def opcodeRowsF : List OpcodeRow :=
 [⟨"LD_VX_DT", 0xF0FF, 0xF007⟩,
   ⟨"LD_VX_K", 0xF0FF, 0xF00A⟩,
   ⟨"LD_DT_VX", 0xF0FF, 0xF015⟩,
   ⟨"LD_ST_VX", 0xF0FF, 0xF018⟩,
   ⟨"ADD_I", 0xF0FF, 0xF01E⟩,
   ⟨"LD_F", 0xF0FF, 0xF029⟩,
   ⟨"LD_B", 0xF0FF, 0xF033⟩,
   ⟨"LD_MEM_VX", 0xF0FF, 0xF055⟩,
   ⟨"LD_VX_MEM", 0xF0FF, 0xF065⟩]

/-- The opcode map of R63: 34 rows, in the table's order. -/
def opcodeRows : List OpcodeRow := opcodeRowsLow ++ opcodeRowsAlu ++ opcodeRowsHigh ++ opcodeRowsF

/-- A word is an instruction exactly when some row accepts it (R63); every other word is a decode failure (R69). -/
def legalWord (w : Word) : Bool := opcodeRows.any fun r => r.accepts w

/-- The check on a term. DEDUCED (log entry 10): "A register field is never checked: all 16 values of `x` and of `y`
are legal wherever the field is an operand" (R61), every `kk`, `n` and `nnn` is legal too, and the types of
the fields hold exactly the values the encoding has room for. So no term of `Instr` is ill formed; what can be
ill formed is a word, which `legalWord` checks. -/
def Instr.wellFormed : Instr → Bool
  | .cls | .ret | .jp _ | .call _ | .seImm _ _ | .sneImm _ _ | .seReg _ _ | .ldImm _ _ | .addImm _ _
  | .ldReg _ _ | .or _ _ | .and _ _ | .xor _ _ | .addReg _ _ | .sub _ _ | .shr _ _ | .subn _ _ | .shl _ _
  | .sneReg _ _ | .ldI _ | .jpV0 _ | .rnd _ _ | .drw _ _ _ | .skp _ | .sknp _ | .ldVxDt _ | .ldVxK _
  | .ldDtVx _ | .ldStVx _ | .addI _ | .ldF _ | .ldB _ | .ldMemVx _ | .ldVxMem _ => true

end Sys2Proof
end

