-- ==== Sys2Proof/Decode.lean ====
section
/-! DEFINITION. Decoding (spec/30_encoding.md R60 to R72) and, after it, encoding. Decoding is a pure, total function
of the word (R72): first by the top nibble, then by the low byte or low nibble (R63 to R68); a word outside the
table is rejected by name (R69). -/

namespace Sys2Proof

/-- The word made of the byte at the lower address (high byte) and the byte after it: `op = mem[PC] :: mem[PC+1]`
(R42, R60). -/
def joinBytes (hi lo : Byte) : Word := hi ++ lo

/-- The byte of a word that lies at the lower address, `op[15:8]` (R42). -/
def highByte (w : Word) : Byte := w.extractLsb' 8 8

/-- The byte of a word that lies at the higher address, `op[7:0]` (R42). -/
def lowByte (w : Word) : Byte := w.extractLsb' 0 8

/-- The family, `op[15:12]` (R61). -/
def opFamily (w : Word) : Nibble := w.extractLsb' 12 4

/-- The field `x = op[11:8]` (R61). -/
def fieldX (w : Word) : Nibble := w.extractLsb' 8 4

/-- The field `y = op[7:4]` (R61). -/
def fieldY (w : Word) : Nibble := w.extractLsb' 4 4

/-- The field `n = op[3:0]` (R61). -/
def fieldN (w : Word) : Nibble := w.extractLsb' 0 4

/-- The field `kk = op[7:0]` (R61). -/
def fieldKk (w : Word) : Byte := w.extractLsb' 0 8

/-- The field `nnn = op[11:0]` (R61). -/
def fieldNnn (w : Word) : Addr := w.extractLsb' 0 12

/-- Why no instruction was read: the second-level mismatches of R69, by family, each with the word; and fewer than
two bytes, which the byte decoder alone meets (a fetch always has two). -/
inductive Reject where
  /-- Family 0, neither 0x00E0 nor 0x00EE (R64). -/
  | unknownFamily0 (w : Word)
  /-- Family 5 with a low nibble that is not 0 (R68). -/
  | unknownFamily5 (w : Word)
  /-- Family 8 with a low nibble 8 to D or F (R65). -/
  | unknownFamily8 (w : Word)
  /-- Family 9 with a low nibble that is not 0 (R68). -/
  | unknownFamily9 (w : Word)
  /-- Family E with a low byte that is neither 0x9E nor 0xA1 (R66). -/
  | unknownFamilyE (w : Word)
  /-- Family F with a low byte outside the nine of R67. -/
  | unknownFamilyF (w : Word)
  /-- Fewer than two bytes: an instruction is exactly two (R60). -/
  | tooShort
  deriving DecidableEq, Repr

/-- Family 0: the whole word is compared (R64). -/
def decodeFamily0 (w : Word) : Except Reject Instr :=
  if w = 0x00E0#16 then .ok .cls
  else if w = 0x00EE#16 then .ok .ret
  else .error (.unknownFamily0 w)

/-- Family 8: second level on `op[3:0]` (R65). -/
def decodeFamily8 (w : Word) : Except Reject Instr :=
  let x := fieldX w
  let y := fieldY w
  match fieldN w with
  | 0x0#4 => .ok (.ldReg x y)
  | 0x1#4 => .ok (.or x y)
  | 0x2#4 => .ok (.and x y)
  | 0x3#4 => .ok (.xor x y)
  | 0x4#4 => .ok (.addReg x y)
  | 0x5#4 => .ok (.sub x y)
  | 0x6#4 => .ok (.shr x y)
  | 0x7#4 => .ok (.subn x y)
  | 0xE#4 => .ok (.shl x y)
  | _ => .error (.unknownFamily8 w)

/-- Family E: second level on `op[7:0]` (R66). -/
def decodeFamilyE (w : Word) : Except Reject Instr :=
  match fieldKk w with
  | 0x9E#8 => .ok (.skp (fieldX w))
  | 0xA1#8 => .ok (.sknp (fieldX w))
  | _ => .error (.unknownFamilyE w)

/-- Family F: second level on `op[7:0]` (R67). -/
def decodeFamilyF (w : Word) : Except Reject Instr :=
  let x := fieldX w
  match fieldKk w with
  | 0x07#8 => .ok (.ldVxDt x)
  | 0x0A#8 => .ok (.ldVxK x)
  | 0x15#8 => .ok (.ldDtVx x)
  | 0x18#8 => .ok (.ldStVx x)
  | 0x1E#8 => .ok (.addI x)
  | 0x29#8 => .ok (.ldF x)
  | 0x33#8 => .ok (.ldB x)
  | 0x55#8 => .ok (.ldMemVx x)
  | 0x65#8 => .ok (.ldVxMem x)
  | _ => .error (.unknownFamilyF w)

/-- `Decode(op)`: first level on the top nibble (R63). The last arm is the one value left, 0xF. -/
def decodeWord (w : Word) : Except Reject Instr :=
  match opFamily w with
  | 0x0#4 => decodeFamily0 w
  | 0x1#4 => .ok (.jp (fieldNnn w))
  | 0x2#4 => .ok (.call (fieldNnn w))
  | 0x3#4 => .ok (.seImm (fieldX w) (fieldKk w))
  | 0x4#4 => .ok (.sneImm (fieldX w) (fieldKk w))
  | 0x5#4 => if fieldN w = 0 then .ok (.seReg (fieldX w) (fieldY w)) else .error (.unknownFamily5 w)
  | 0x6#4 => .ok (.ldImm (fieldX w) (fieldKk w))
  | 0x7#4 => .ok (.addImm (fieldX w) (fieldKk w))
  | 0x8#4 => decodeFamily8 w
  | 0x9#4 => if fieldN w = 0 then .ok (.sneReg (fieldX w) (fieldY w)) else .error (.unknownFamily9 w)
  | 0xA#4 => .ok (.ldI (fieldNnn w))
  | 0xB#4 => .ok (.jpV0 (fieldNnn w))
  | 0xC#4 => .ok (.rnd (fieldX w) (fieldKk w))
  | 0xD#4 => .ok (.drw (fieldX w) (fieldY w) (fieldN w))
  | 0xE#4 => decodeFamilyE w
  | _ => decodeFamilyF w

/-- Decoding from bytes, lowest address first: the instruction and the bytes after it. Every instruction is exactly
two bytes, high byte first (R60). -/
def decode : List Byte → Except Reject (Instr × List Byte)
  | hi :: lo :: rest => (decodeWord (joinBytes hi lo)).map fun i => (i, rest)
  | _ => .error .tooShort

/-- Format `A`: top nibble, `nnn` (R62). -/
def wordA (family : Nibble) (nnn : Addr) : Word := family ++ nnn

/-- Formats `XK` and `X`: top nibble, `x`, a byte that is `kk` or the sub-opcode (R62). -/
def wordXK (family x : Nibble) (byte : Byte) : Word := family ++ x ++ byte

/-- Formats `XYN` and `XY`: top nibble, `x`, `y`, a nibble that is `n` or the sub-opcode (R62). -/
def wordXYN (family x y nibble : Nibble) : Word := family ++ x ++ y ++ nibble

/-- The word of an instruction, from the formats of R62 and the map of R63. -/
def encode : Instr → Word
  | .cls => 0x00E0#16
  | .ret => 0x00EE#16
  | .jp nnn => wordA 0x1#4 nnn
  | .call nnn => wordA 0x2#4 nnn
  | .seImm x kk => wordXK 0x3#4 x kk
  | .sneImm x kk => wordXK 0x4#4 x kk
  | .seReg x y => wordXYN 0x5#4 x y 0x0#4
  | .ldImm x kk => wordXK 0x6#4 x kk
  | .addImm x kk => wordXK 0x7#4 x kk
  | .ldReg x y => wordXYN 0x8#4 x y 0x0#4
  | .or x y => wordXYN 0x8#4 x y 0x1#4
  | .and x y => wordXYN 0x8#4 x y 0x2#4
  | .xor x y => wordXYN 0x8#4 x y 0x3#4
  | .addReg x y => wordXYN 0x8#4 x y 0x4#4
  | .sub x y => wordXYN 0x8#4 x y 0x5#4
  | .shr x y => wordXYN 0x8#4 x y 0x6#4
  | .subn x y => wordXYN 0x8#4 x y 0x7#4
  | .shl x y => wordXYN 0x8#4 x y 0xE#4
  | .sneReg x y => wordXYN 0x9#4 x y 0x0#4
  | .ldI nnn => wordA 0xA#4 nnn
  | .jpV0 nnn => wordA 0xB#4 nnn
  | .rnd x kk => wordXK 0xC#4 x kk
  | .drw x y n => wordXYN 0xD#4 x y n
  | .skp x => wordXK 0xE#4 x 0x9E#8
  | .sknp x => wordXK 0xE#4 x 0xA1#8
  | .ldVxDt x => wordXK 0xF#4 x 0x07#8
  | .ldVxK x => wordXK 0xF#4 x 0x0A#8
  | .ldDtVx x => wordXK 0xF#4 x 0x15#8
  | .ldStVx x => wordXK 0xF#4 x 0x18#8
  | .addI x => wordXK 0xF#4 x 0x1E#8
  | .ldF x => wordXK 0xF#4 x 0x29#8
  | .ldB x => wordXK 0xF#4 x 0x33#8
  | .ldMemVx x => wordXK 0xF#4 x 0x55#8
  | .ldVxMem x => wordXK 0xF#4 x 0x65#8

/-- The two bytes of an instruction, lowest address first (R42). -/
def encodeBytes (i : Instr) : List Byte := [highByte (encode i), lowByte (encode i)]

/-- A table word of `nbits` bits as the hardware stores it: one 16-bit word, high byte at the lower address (R42);
bits above `nbits` are 0. -/
def tableBytes (nbits w : Nat) : List Byte :=
  let word := BitVec.ofNat 16 (w % 2 ^ nbits)
  [highByte word, lowByte word]

/-- The instruction this decoder reads from the bits `w` of a row of the opcode table. -/
def decodeTableWord (nbits w : Nat) : Option Instr :=
  match decode (tableBytes nbits w) with
  | .ok (i, []) => some i
  | _ => none

end Sys2Proof
end

