-- ==== Sys2Proof/Config.lean ====
section
/-! DEFINITION. What this hardware fixes (the sizes of spec/00_scope.md section 5), the four operations through which
a host drives the core (R1), and the one free value of the model: which operation the host performs when
nothing is queued. The parameter `FONT` and its default are in Sys2Proof/Machine/Font.lean. -/

namespace Sys2Proof

/-- `MEM_SIZE`: addresses 0x000 to 0xFFF (R40). -/
def Config.memSize : Nat := 4096

/-- `FONT_SIZE`: bytes 0x000 to 0x04F hold the font (R41). -/
def Config.fontSize : Nat := 80

/-- `PROG_BASE`: the load address of a program image and the reset value of `PC` (R13, R48). -/
def Config.progBase : Nat := 0x200

/-- `ROM_MAX`: the longest program image, 0x200 to 0xFFF (R172). -/
def Config.romMax : Nat := 3584

/-- The four atomic operations a host invokes (R1). `keys` and `rnd` are the inputs of a `Cycle` (R4). -/
inductive HostOp where
  /-- `Cycle(keys, rnd)`: one fetch, decode, execute (R70). -/
  | cycle (keys : Keys) (rnd : Byte)
  /-- `Tick()`: one decrement of both timers (R152). -/
  | tick
  /-- `DisplayConsume()`: the display sink takes the framebuffer (R155). -/
  | displayConsume
  /-- `Reset(image)`: initialise and load a program image (R171). -/
  | reset (image : List Byte)
  deriving DecidableEq, Repr, Inhabited

/-- FREE VALUE (log entry 2). The operation the host performs next when its queue is empty, for the `n`-th such
choice. It has no body: any operation, any keys, any random byte, any schedule (R3, R4). -/
opaque Config.hostOp : Nat → HostOp

end Sys2Proof
end

