-- ==== Sys2Proof/Machine/Font.lean ====
section
/-! DEFINITION. The parameter `FONT` of spec/20_memory.md R47: its type, and its default. The machine holds the parameter
(Sys2Proof/Machine/State.lean, field `font`); nothing else of the model depends on the default. -/

namespace Sys2Proof.Machine

/-- The parameter `FONT[0..79]`: 16 glyphs of 5 bytes, the glyph of digit `d` at `5 * d` (R47). -/
abbrev Font := Vector Byte Config.fontSize

/-- The table of R47, glyph by glyph. -/
def defaultGlyphs : List Byte :=
  [0xF0, 0x90, 0x90, 0x90, 0xF0, 0x20, 0x60, 0x20, 0x20, 0x70] ++
  [0xF0, 0x10, 0xF0, 0x80, 0xF0, 0xF0, 0x10, 0xF0, 0x10, 0xF0] ++
  [0x90, 0x90, 0xF0, 0x10, 0x10, 0xF0, 0x80, 0xF0, 0x10, 0xF0] ++
  [0xF0, 0x80, 0xF0, 0x90, 0xF0, 0xF0, 0x10, 0x20, 0x40, 0x40] ++
  [0xF0, 0x90, 0xF0, 0x90, 0xF0, 0xF0, 0x90, 0xF0, 0x10, 0xF0] ++
  [0xF0, 0x90, 0xF0, 0x90, 0x90, 0xE0, 0x90, 0xE0, 0x90, 0xE0] ++
  [0xF0, 0x80, 0x80, 0x80, 0xF0, 0xE0, 0x90, 0x90, 0x90, 0xE0] ++
  [0xF0, 0x80, 0xF0, 0x80, 0xF0, 0xF0, 0x80, 0xF0, 0x80, 0x80]

/-- The default of `FONT`. PRESUMED (log entry 1): the source gives no byte values; these are the customary CHIP-8 font
that R47 prints, `[from general knowledge, not in source]`. -/
def defaultFont : Font := ⟨defaultGlyphs.toArray, rfl⟩

end Sys2Proof.Machine
end

