-- ==== Sys2Proof/Machine/State.lean ====
section
/-! DEFINITION. The state of the machine as plain data: every row of the table of spec/10_state.md rule R25, the
parameter `FONT` (R47), and, in `HostSide`, what the model keeps of the host that drives it. The ways a step can end, and the state after
reset. -/

namespace Sys2Proof.Machine

/-- The 4096 bytes of memory (R40) as (address, byte) pairs: addresses strictly rising, no entry equal to what an
unlisted address reads as (Sys2Proof/Machine/Memory.lean, `Memory.wf`). -/
abbrev Memory := List Host.Cell

/-- The 64 by 32 framebuffer (R19): 32 rows, top row first; bit `px` of row `py` is the pixel in column `px`, the
left column being bit 0. -/
abbrev Framebuffer := Vector (BitVec 64) 32

/-- THE MODEL'S OWN FIELDS (log entries 2 and 3), none of them state of the core (R23): what the host does and
supplies. -/
structure HostSide where
  /-- The operations the host has queued, the next one first. -/
  script : List HostOp
  /-- How many operations were drawn from the free value `Config.hostOp` because the queue was empty. -/
  drawn : Nat
  /-- The input `keys` of the cycle being performed (R4). -/
  keys : Keys
  /-- The input `rnd` of the cycle being performed (R4). -/
  rnd : Byte
  deriving DecidableEq, Repr

/-- The machine state, R25's table row by row, the parameter `FONT`, and the host's side. -/
structure State where
  /-- `V0` to `VF`, sixteen bytes (R10). -/
  v : Vector Byte 16
  /-- The index register `I` (R12). -/
  index : Word
  /-- The program counter `PC` (R13). -/
  pc : Word
  /-- The stack pointer `SP`: the number of entries in use, 0 to 16 (R16). -/
  sp : Fin 17
  /-- The call stack, sixteen entries of its own, not in memory (R15). -/
  stack : Vector Word 16
  /-- `delay_timer`, `DT` (R17). -/
  delayTimer : Byte
  /-- `sound_timer`, `ST` (R18). -/
  soundTimer : Byte
  /-- The memory (R40). -/
  mem : Memory
  /-- The framebuffer `FB` (R19). -/
  fb : Framebuffer
  /-- `dirty`: the framebuffer was drawn on since the display sink last took it (R20). -/
  dirty : Bool
  /-- `halted`: the terminal state a fatal condition sets (R21). -/
  halted : Bool
  /-- `fault_cause`: the code of R140, 0 for none (R22). -/
  faultCause : BitVec 3
  /-- `fault_pc`: the `PC` of the cycle that faulted (R22). -/
  faultPc : Word
  /-- `fault_word`: the word of that cycle, 0x0000 when the fetch itself faulted (R22). -/
  faultWord : Word
  /-- `FONT`, the parameter of the machine (R47): what `Initialize` puts at 0x000 to 0x04F. No operation changes it. -/
  font : Font
  /-- The host's side, the model's own. -/
  host : HostSide
  deriving DecidableEq, Repr

/-- How the model itself stops with no successor state. The machine's own fatal conditions are not here: they are
next states with `halted` set (R142). -/
inductive Fault where
  /-- Raised by `perform` (Sys2Proof/Machine/Cycle.lean) for `DisplayConsume` with `dirty = 0`: the operation is enabled
  only when `dirty == 1` (R155) and otherwise cannot occur. Safe: the step has no successor, and the rule
  gives it none. -/
  | consumeNotEnabled
  deriving DecidableEq, Repr

/-- Why an instruction has no meaning. -/
inductive Refusal where
  /-- Raised by an arm of `exec` whose instruction has no meaning yet; no arm is left that raises it. Safe. -/
  | notModelled (mnemonic : String)
  deriving DecidableEq, Repr

/-- The outcome of one instruction or of one step. -/
abbrev Result := Host.Outcome State Fault Refusal

/-- The host's side at reset: nothing queued, nothing drawn, inputs at 0. DESIGN CHOICE (log entry 3): the fields are the
model's own, and no statement rests on these values. -/
def HostSide.reset : HostSide := { script := [], drawn := 0, keys := 0, rnd := 0 }

/-- The machine with the parameter `FONT` right after `Initialize` (R170, R25): every field as the spec states it, `PC` at
0x200, memory with nothing listed (the font and zeros, R41). `FONT` is an argument with the default of R47 (log
entry 1). -/
def State.atReset (font : Font := defaultFont) : State :=
  { v := Vector.replicate 16 0
    index := 0
    pc := 0x200
    sp := 0
    stack := Vector.replicate 16 0
    delayTimer := 0
    soundTimer := 0
    mem := []
    fb := Vector.replicate 32 0
    dirty := false
    halted := false
    faultCause := 0
    faultPc := 0
    faultWord := 0
    font := font
    host := HostSide.reset }

/-- The machine right after `Initialize`, with the default `FONT`. -/
def State.reset : State := State.atReset

end Sys2Proof.Machine
end

