-- ==== Sys2Proof/Machine/Flags.lean ====
section
/-! DEFINITION. Every flag computation (spec/41_alu.md): the values `VF` takes. There is no other flag (R11, R102). -/

namespace Sys2Proof.Machine

/-- A condition as the byte `VF` takes: 1 when true, 0 when false (spec/00_scope.md section 6). -/
def flagByte (c : Bool) : Byte := if c then 1 else 0

/-- Carry out of the 8-bit addition: the exact sum exceeds 255 (R96). -/
def carryOut (a b : Byte) : Bool := decide (a.toNat + b.toNat > 255)

/-- The greater-than result of the subtractions, strict: `a > b` (R97; R99 with the operands exchanged). -/
def greaterThan (a b : Byte) : Bool := decide (a.toNat > b.toNat)

/-- The bit shifted out at the bottom, `a[0]` (R98). -/
def shiftedOutLow (a : Byte) : Bool := a.getLsbD 0

/-- The bit shifted out at the top, `a[7]` (R100). -/
def shiftedOutHigh (a : Byte) : Bool := a.getLsbD 7

end Sys2Proof.Machine
end

