-- ==== Sys2Proof/Machine/Memory.lean ====
section
/-! DEFINITION. The named operations over memory (spec/20_memory.md): what an unlisted address reads as, reading and
writing one byte in the canonical form, and the bounds-checked accesses of one or more bytes. `f` is the parameter
`FONT` of the machine. -/

namespace Sys2Proof.Machine

/-- What an unlisted address reads as: the content after `Initialize`, the parameter `FONT` at 0x000 to 0x04F and 0 above
it (R41, R47, R170). -/
def Memory.initial (f : Font) (a : Nat) : Byte := if h : a < Config.fontSize then f[a] else 0

/-- The byte at address `a`. -/
def Memory.read (f : Font) : Memory → Nat → Byte
  | [], a => Memory.initial f a
  | c :: m, a => if c.1 = a then c.2 else Memory.read f m a

/-- `m` with the entry for `a` in front, or without one when the byte is what an unlisted address reads as. -/
def Memory.put (f : Font) (a : Nat) (b : Byte) (m : Memory) : Memory := if b = Memory.initial f a then m else (a, b) :: m

/-- `m` with the byte `b` at address `a`, in the canonical form when `m` is. -/
def Memory.write (f : Font) : Memory → Nat → Byte → Memory
  | [], a, b => Memory.put f a b []
  | c :: m, a, b =>
    if a < c.1 then Memory.put f a b (c :: m)
    else if a = c.1 then Memory.put f a b m
    else c :: Memory.write f m a b

/-- `m` with the bytes `bs` at `a`, `a + 1`, …, stored in ascending order (R43). -/
def Memory.writeBytes (f : Font) : Memory → Nat → List Byte → Memory
  | m, _, [] => m
  | m, a, b :: bs => Memory.writeBytes f (Memory.write f m a b) (a + 1) bs

/-- The canonical form from address `lo` on: addresses strictly rising, all inside the memory, no entry equal to what an
unlisted address reads as. -/
def Memory.wfFrom (f : Font) : Nat → Memory → Bool
  | _, [] => true
  | lo, c :: m =>
    decide (lo ≤ c.1) && decide (c.1 < Config.memSize) && decide (c.2 ≠ Memory.initial f c.1) && Memory.wfFrom f (c.1 + 1) m

/-- The canonical form of memory. -/
def Memory.wf (f : Font) (m : Memory) : Bool := Memory.wfFrom f 0 m

/-- Every one of the `n` addresses from `a` on exists: none exceeds 0xFFF (R44). `a` is an unbounded integer, so nothing
wraps at 12 or 16 bits (R45); no address at all is in range. -/
def Memory.inRange (a n : Nat) : Bool := n == 0 || decide (a + n ≤ Config.memSize)

/-- `MemRead` of `n` bytes from `a` on, lowest address first; `none` where R44 raises `MemoryRange`. -/
def Memory.load (f : Font) (m : Memory) (a n : Nat) : Option (List Byte) :=
  if Memory.inRange a n then some ((List.range n).map fun j => Memory.read f m (a + j)) else none

/-- `MemWrite` of the bytes `bs` from `a` on, checked before any store; `none` where R44 raises `MemoryRange`. -/
def Memory.store (f : Font) (m : Memory) (a : Nat) (bs : List Byte) : Option Memory :=
  if Memory.inRange a bs.length then some (Memory.writeBytes f m a bs) else none

end Sys2Proof.Machine
end

