-- ==== Sys2Proof/Machine/Framebuffer.lean ====
section
/-! DEFINITION. The named operations over the framebuffer (spec/10_state.md R19, spec/43_display.md): reading and toggling
one pixel, clearing all of them, and the XOR of a sprite with its collision test. -/

namespace Sys2Proof.Machine

/-- The pixel `FB[px][py]`: column `px`, row `py` (R19). -/
def Framebuffer.pixel (fb : Framebuffer) (px : Fin 64) (py : Fin 32) : Bool := fb[py.val].getLsbD px.val

/-- The framebuffer with the pixel `FB[px][py]` toggled: `FB[px][py] ^ 1` (R121). -/
def Framebuffer.toggle (fb : Framebuffer) (px : Fin 64) (py : Fin 32) : Framebuffer :=
  fb.set py.val (fb[py.val] ^^^ BitVec.twoPow 64 px.val)

/-- The framebuffer with all 2048 pixels 0 (R120). -/
def Framebuffer.clear : Framebuffer := Vector.replicate 32 0

/-- Column `X0 + c` of the screen, modulo 64: the sum is formed as an integer first (R122 a). -/
def screenColumn (x0 : Byte) (c : Nat) : Fin 64 := ⟨(x0.toNat + c) % 64, Nat.mod_lt _ (by decide)⟩

/-- Row `Y0 + r` of the screen, modulo 32 (R122 a). -/
def screenRow (y0 : Byte) (r : Nat) : Fin 32 := ⟨(y0.toNat + r) % 32, Nat.mod_lt _ (by decide)⟩

/-- Sprite bit of column `c`, left to right: the most significant bit is column 0 (R121). -/
def spriteBit (row : Byte) (c : Nat) : Bool := row.getLsbD (7 - c)

/-- The screen columns a sprite row toggles, left to right: those of its set bits (R121, R122 d). -/
def rowTargets (x0 row : Byte) : List (Fin 64) :=
  ((List.range 8).filter fun c => spriteBit row c).map fun c => screenColumn x0 c

/-- One toggled pixel: `hit` becomes 1 when the pixel was set, and is never cleared again within a draw (R121). -/
def drawPixel (py : Fin 32) (acc : Framebuffer × Bool) (px : Fin 64) : Framebuffer × Bool :=
  (acc.1.toggle px py, acc.2 || acc.1.pixel px py)

/-- The rows of a sprite drawn top to bottom, the first of them being row `r` (R121). -/
def drawRows (x0 y0 : Byte) : Nat → List Byte → Framebuffer × Bool → Framebuffer × Bool
  | _, [], acc => acc
  | r, row :: rows, acc => drawRows x0 y0 (r + 1) rows ((rowTargets x0 row).foldl (drawPixel (screenRow y0 r)) acc)

/-- The sprite of the bytes `rows` drawn at column `x0`, row `y0`: the framebuffer after it, and whether any set
pixel was turned off (R121). -/
def drawSprite (fb : Framebuffer) (x0 y0 : Byte) (rows : List Byte) : Framebuffer × Bool :=
  drawRows x0 y0 0 rows (fb, false)

end Sys2Proof.Machine
end

