-- ==== Sys2Proof/Machine/Ops.lean ====
section
/-! DEFINITION. The named operations over registers, memory, program counter, stack, timers and display, and TAKING A FATAL
CONDITION (R142), the machine's only exception. There is no return from it (R146): the one way out is `Reset`
(Sys2Proof/Machine/HostOps.lean). -/

namespace Sys2Proof.Machine

/-- Read general register `x`: no register is hard-wired (R10). -/
def State.reg (s : State) (x : Nibble) : Byte := s.v[x.toNat]'x.isLt

/-- Write general register `x` (R10). -/
def State.setReg (s : State) (x : Nibble) (b : Byte) : State := { s with v := s.v.set x.toNat b x.isLt }

/-- Write `VF` as a flag: to 0 or 1, whatever it held (R11). -/
def State.setFlag (s : State) (c : Bool) : State := s.setReg 0xF#4 (flagByte c)

/-- The register file with the bytes of the list written to registers `k`, `k + 1`, … in ascending order (R115). -/
def regsFrom : Vector Byte 16 → Nat → List Byte → Vector Byte 16
  | v, _, [] => v
  | v, k, b :: bs => regsFrom (if h : k < 16 then v.set k b h else v) (k + 1) bs

/-- Write the bytes `bs` to `V0`, `V1`, …, as many as there are; the other registers keep their value (R115). -/
def State.setRegs (s : State) (bs : List Byte) : State := { s with v := regsFrom s.v 0 bs }

/-- Write `I` (R12). -/
def State.setIndex (s : State) (w : Word) : State := { s with index := w }

/-- Write `PC`. -/
def State.setPc (s : State) (w : Word) : State := { s with pc := w }

/-- The default of R26: `PC <- PC + 2`. -/
def State.advance (s : State) : State := s.setPc (s.pc + 2)

/-- A conditional skip: `PC + 4` when the condition holds, else `PC + 2` (R89). -/
def State.skipIf (s : State) (c : Bool) : State := s.setPc (if c then s.pc + 4 else s.pc + 2)

/-- `stack[SP] <- w; SP <- SP + 1`; `none` when `SP == 16` (R16, R82). -/
def State.push (s : State) (w : Word) : Option State :=
  if h : s.sp.val < 16 then
    some { s with stack := s.stack.set s.sp.val w h, sp := ⟨s.sp.val + 1, Nat.succ_lt_succ h⟩ }
  else none

/-- `t <- stack[SP - 1]; SP <- SP - 1`, the entry keeping its value (R15); `none` when `SP == 0` (R16, R80). -/
def State.pop (s : State) : Option (Word × State) :=
  if h : s.sp.val = 0 then none
  else
    some (s.stack[s.sp.val - 1]'(by have := s.sp.isLt; omega),
      { s with sp := ⟨s.sp.val - 1, by have := s.sp.isLt; omega⟩ })

/-- Write `delay_timer` (R17). -/
def State.setDelay (s : State) (b : Byte) : State := { s with delayTimer := b }

/-- Write `sound_timer` (R18). -/
def State.setSound (s : State) (b : Byte) : State := { s with soundTimer := b }

/-- Replace the memory. -/
def State.setMem (s : State) (m : Memory) : State := { s with mem := m }

/-- The byte of memory at address `a`, in a machine with its own `FONT` (R40, R41). -/
def State.byteAt (s : State) (a : Nat) : Byte := s.mem.read s.font a

/-- `MemRead` of `n` bytes from `a` on; `none` where R44 raises `MemoryRange`. -/
def State.loadBytes (s : State) (a n : Nat) : Option (List Byte) := s.mem.load s.font a n

/-- `MemWrite` of the bytes `bs` from `a` on; `none` where R44 raises `MemoryRange`. -/
def State.storeBytes (s : State) (a : Nat) (bs : List Byte) : Option State :=
  (s.mem.store s.font a bs).map fun m => s.setMem m

/-- Replace the framebuffer by what a draw or a clear leaves, and set `dirty` (R20). -/
def State.setScreen (s : State) (fb : Framebuffer) : State := { s with fb := fb, dirty := true }

/-- The fatal conditions (R140). -/
inductive Cause where
  /-- The fetched word is outside the opcode table. -/
  | decodeFailure
  /-- `2nnn` with `SP == 16`. -/
  | stackOverflow
  /-- `00EE` with `SP == 0`. -/
  | stackUnderflow
  /-- An access to an address above 0xFFF. -/
  | memoryRange
  /-- `Ex9E` or `ExA1` with `Vx > 0x0F`. -/
  | keyCodeRange
  deriving DecidableEq, Repr

/-- The code of a fatal condition (R140). -/
def causeCode : Cause → BitVec 3
  | .decodeFailure => 1
  | .stackOverflow => 2
  | .stackUnderflow => 3
  | .memoryRange => 4
  | .keyCodeRange => 5

/-- TAKING A FATAL CONDITION, `raise`: exactly the four writes of R142; `PC` keeps pointing at the instruction that
faulted, and nothing else changes (R143). -/
def State.raise (s : State) (c : Cause) (word : Word) : State :=
  { s with halted := true, faultCause := causeCode c, faultPc := s.pc, faultWord := word }

/-- The shape of every instruction: the effect when its own condition does not hold, and otherwise the fatal
condition with nothing of the effect done (R143; log entry 17). The word reported is the instruction's own, since each
legal word has one instruction (log entry 11). The machine goes on to a next state either way. -/
def attempt (effect : Option State) (c : Cause) (i : Instr) (s : State) : Result :=
  .next (effect.getD (s.raise c (encode i)))

end Sys2Proof.Machine
end

