-- ==== Sys2Proof/Machine/Operands.lean ====
section
/-! DEFINITION. Every operand form: immediates, effective addresses, the block `V0` to `Vx`, key codes and the decimal
digits. All operands are sampled from the state at the start of the cycle (R14; log entry 5). -/

namespace Sys2Proof.Machine

/-- `nnn` as a 16-bit value, zero-extended (R61). -/
def addrWord (nnn : Addr) : Word := nnn.setWidth 16

/-- A byte as a 16-bit value, zero-extended. -/
def byteWord (b : Byte) : Word := b.setWidth 16

/-- The base of every data access: `I` as an unbounded integer, so that `I + offset` never wraps (R45, R116). -/
def State.base (s : State) : Nat := s.index.toNat

/-- How many registers `V0` to `Vx` are: `x + 1` (R114). -/
def blockSize (x : Nibble) : Nat := x.toNat + 1

/-- The values of `V0` to `Vx`, in that order (R114). -/
def State.firstRegs (s : State) (x : Nibble) : List Byte := s.v.toList.take (blockSize x)

/-- The key code in `Vx`; `none` when it is above 15 (R130). -/
def State.keyCode (s : State) (x : Nibble) : Option Nat :=
  if (s.reg x).toNat ≤ 15 then some (s.reg x).toNat else none

/-- Key `k` is down in the snapshot of this cycle (R4). -/
def State.keyDown (s : State) (k : Nat) : Bool := s.host.keys.getLsbD k

/-- The smallest code whose key is down: an ascending scan of 0x0 to 0xF inclusive (R132). -/
def State.firstKey (s : State) : Option Nat := (List.range 16).find? fun k => s.keyDown k

/-- The three decimal digits of a byte, hundreds, tens, ones, each as its binary value (R113). -/
def bcdDigits (a : Byte) : List Byte :=
  [BitVec.ofNat 8 (a.toNat / 100), BitVec.ofNat 8 (a.toNat / 10 % 10), BitVec.ofNat 8 (a.toNat % 10)]

end Sys2Proof.Machine
end

