-- ==== Sys2Proof/Machine/Alu.lean ====
section
/-! DEFINITION. Register load, arithmetic, logic, shift and random (spec/41_alu.md). The flag writers write `VF` first
and `Vx` second, from operands read before either write (R14, R103; log entry 5). -/

namespace Sys2Proof.Machine

/-- `VF <- flag; V[x] <- result; PC <- PC + 2`: a later write to the same register replaces an earlier one (R103). -/
def State.flagThenReg (s : State) (flag : Bool) (x : Nibble) (result : Byte) : State :=
  ((s.setFlag flag).setReg x result).advance

/-- `6xkk`, `LD Vx, kk` (R90). -/
def execLdImm (x : Nibble) (kk : Byte) (s : State) : Result := .next (s.setReg x kk).advance

/-- `7xkk`, `ADD Vx, kk`: modulo 256, `VF` not written as a flag (R91). -/
def execAddImm (x : Nibble) (kk : Byte) (s : State) : Result := .next (s.setReg x (s.reg x + kk)).advance

/-- `8xy0`, `LD Vx, Vy` (R92). -/
def execLdReg (x y : Nibble) (s : State) : Result := .next (s.setReg x (s.reg y)).advance

/-- `8xy1`, `OR Vx, Vy` (R93). -/
def execOr (x y : Nibble) (s : State) : Result := .next (s.setReg x (s.reg x ||| s.reg y)).advance

/-- `8xy2`, `AND Vx, Vy` (R94). -/
def execAnd (x y : Nibble) (s : State) : Result := .next (s.setReg x (s.reg x &&& s.reg y)).advance

/-- `8xy3`, `XOR Vx, Vy` (R95). -/
def execXor (x y : Nibble) (s : State) : Result := .next (s.setReg x (s.reg x ^^^ s.reg y)).advance

/-- `8xy4`, `ADD Vx, Vy` (R96). -/
def execAddReg (x y : Nibble) (s : State) : Result :=
  .next (s.flagThenReg (carryOut (s.reg x) (s.reg y)) x (s.reg x + s.reg y))

/-- `8xy5`, `SUB Vx, Vy` (R97). -/
def execSub (x y : Nibble) (s : State) : Result :=
  .next (s.flagThenReg (greaterThan (s.reg x) (s.reg y)) x (s.reg x - s.reg y))

/-- `8xy6`, `SHR Vx`: `Vx` is shifted in place, the `y` field has no effect (R98). -/
def execShr (x _y : Nibble) (s : State) : Result :=
  .next (s.flagThenReg (shiftedOutLow (s.reg x)) x (s.reg x >>> 1))

/-- `8xy7`, `SUBN Vx, Vy` (R99). -/
def execSubn (x y : Nibble) (s : State) : Result :=
  .next (s.flagThenReg (greaterThan (s.reg y) (s.reg x)) x (s.reg y - s.reg x))

/-- `8xyE`, `SHL Vx`: `Vx` is shifted in place, the `y` field has no effect (R100). -/
def execShl (x _y : Nibble) (s : State) : Result :=
  .next (s.flagThenReg (shiftedOutHigh (s.reg x)) x (s.reg x <<< 1))

/-- `Cxkk`, `RND Vx, kk`: `rnd` is the input of this cycle (R101, R4). -/
def execRnd (x : Nibble) (kk : Byte) (s : State) : Result := .next (s.setReg x (s.host.rnd &&& kk)).advance

end Sys2Proof.Machine
end

