-- ==== Sys2Proof/Machine/Display.lean ====
section
/-! DEFINITION. Framebuffer instructions (spec/43_display.md). -/

namespace Sys2Proof.Machine

/-- `00E0`, `CLS` (R120). -/
def execCls (s : State) : Result := .next (s.setScreen Framebuffer.clear).advance

/-- What `Dxyn` leaves once its sprite rows are read: the collision flag in `VF`, the pixels, `dirty`, `PC + 2`; the
coordinates are the values at the start of the cycle (R121, R122 f). -/
def State.afterDraw (s : State) (x y : Nibble) (rows : List Byte) : State :=
  let d := drawSprite s.fb (s.reg x) (s.reg y) rows
  ((s.setFlag d.2).setScreen d.1).advance

/-- `Dxyn`, `DRW Vx, Vy, n` (R121, R122). -/
def execDrw (x y n : Nibble) (s : State) : Result :=
  attempt ((s.loadBytes s.base n.toNat).map fun rows => s.afterDraw x y rows) .memoryRange (.drw x y n) s

end Sys2Proof.Machine
end

