-- ==== Sys2Proof/Machine/Flow.lean ====
section
/-! DEFINITION. Control transfer and conditional skips (spec/40_flow.md). -/

namespace Sys2Proof.Machine

/-- `00EE`, `RET` (R80). -/
def execRet (s : State) : Result :=
  attempt (s.pop.map fun r => r.2.setPc (r.1 + 2)) .stackUnderflow .ret s

/-- `1nnn`, `JP nnn` (R81). -/
def execJp (nnn : Addr) (s : State) : Result := .next (s.setPc (addrWord nnn))

/-- `2nnn`, `CALL nnn`: pushes the address of the call itself (R82). -/
def execCall (nnn : Addr) (s : State) : Result :=
  attempt ((s.push s.pc).map fun t => t.setPc (addrWord nnn)) .stackOverflow (.call nnn) s

/-- `3xkk`, `SE Vx, kk` (R83). -/
def execSeImm (x : Nibble) (kk : Byte) (s : State) : Result := .next (s.skipIf (s.reg x == kk))

/-- `4xkk`, `SNE Vx, kk` (R84). -/
def execSneImm (x : Nibble) (kk : Byte) (s : State) : Result := .next (s.skipIf (s.reg x != kk))

/-- `5xy0`, `SE Vx, Vy` (R85). -/
def execSeReg (x y : Nibble) (s : State) : Result := .next (s.skipIf (s.reg x == s.reg y))

/-- `9xy0`, `SNE Vx, Vy` (R86). -/
def execSneReg (x y : Nibble) (s : State) : Result := .next (s.skipIf (s.reg x != s.reg y))

/-- `Bnnn`, `JP V0, nnn`: the sum is not reduced to 12 bits (R87). -/
def execJpV0 (nnn : Addr) (s : State) : Result := .next (s.setPc (addrWord nnn + byteWord (s.reg 0)))

end Sys2Proof.Machine
end

