-- ==== Sys2Proof/Machine/IndexMemory.lean ====
section
/-! DEFINITION. Index register and memory instructions (spec/42_index_memory.md). None of them moves `I` but the three that
are about `I` (R116). -/

namespace Sys2Proof.Machine

/-- `Annn`, `LD I, nnn` (R110). -/
def execLdI (nnn : Addr) (s : State) : Result := .next (s.setIndex (addrWord nnn)).advance

/-- `Fx1E`, `ADD I, Vx`: modulo 65536, no flag (R111). -/
def execAddI (x : Nibble) (s : State) : Result := .next (s.setIndex (s.index + byteWord (s.reg x))).advance

/-- `Fx29`, `LD F, Vx`: `5 * Vx`, `Vx` not masked (R112). -/
def execLdF (x : Nibble) (s : State) : Result := .next (s.setIndex (5 * byteWord (s.reg x))).advance

/-- `Fx33`, `LD B, Vx` (R113). -/
def execLdB (x : Nibble) (s : State) : Result :=
  attempt ((s.storeBytes s.base (bcdDigits (s.reg x))).map State.advance) .memoryRange (.ldB x) s

/-- `Fx55`, `LD [I], Vx` (R114). -/
def execLdMemVx (x : Nibble) (s : State) : Result :=
  attempt ((s.storeBytes s.base (s.firstRegs x)).map State.advance) .memoryRange (.ldMemVx x) s

/-- `Fx65`, `LD Vx, [I]` (R115). -/
def execLdVxMem (x : Nibble) (s : State) : Result :=
  attempt ((s.loadBytes s.base (blockSize x)).map fun bs => (s.setRegs bs).advance) .memoryRange (.ldVxMem x) s

end Sys2Proof.Machine
end

