-- ==== Sys2Proof/Machine/KeysTimers.lean ====
section
/-! DEFINITION. Key input and timer access instructions (spec/44_keys_timers.md). -/

namespace Sys2Proof.Machine

/-- `Ex9E`, `SKP Vx` (R130). -/
def execSkp (x : Nibble) (s : State) : Result :=
  attempt ((s.keyCode x).map fun k => s.skipIf (s.keyDown k)) .keyCodeRange (.skp x) s

/-- `ExA1`, `SKNP Vx` (R131). -/
def execSknp (x : Nibble) (s : State) : Result :=
  attempt ((s.keyCode x).map fun k => s.skipIf (!s.keyDown k)) .keyCodeRange (.sknp x) s

/-- `Fx0A`, `LD Vx, K`: with no key down the cycle has no effect at all, and the instruction is fetched again (R132). -/
def execLdVxK (x : Nibble) (s : State) : Result :=
  .next (match s.firstKey with
    | none => s
    | some k => (s.setReg x (BitVec.ofNat 8 k)).advance)

/-- `Fx07`, `LD Vx, DT` (R133). -/
def execLdVxDt (x : Nibble) (s : State) : Result := .next (s.setReg x s.delayTimer).advance

/-- `Fx15`, `LD DT, Vx` (R134). -/
def execLdDtVx (x : Nibble) (s : State) : Result := .next (s.setDelay (s.reg x)).advance

/-- `Fx18`, `LD ST, Vx` (R135). -/
def execLdStVx (x : Nibble) (s : State) : Result := .next (s.setSound (s.reg x)).advance

end Sys2Proof.Machine
end

