-- ==== Sys2Proof/Machine/HostOps.lean ====
section
/-! DEFINITION. The three operations of the host that execute no instruction: `Reset` with the program load
(spec/70_reset_and_hazards.md R170 to R173), `Tick` and `DisplayConsume` (spec/60_exceptions.md R152, R155); and
the choice of the operation that comes next (R1, R3). -/

namespace Sys2Proof.Machine

/-- `Initialize()`: every piece of the core's state at its reset value (R170), the machine's own `FONT` loaded (R47); the
host's side is not the core's and stays. -/
def State.initialized (s : State) : State := { State.atReset s.font with host := s.host }

/-- What `Reset` returns: the load error, or the length of the image (R172). -/
inductive LoadResult where
  | loadError
  | loaded (length : Nat)
  deriving DecidableEq, Repr

/-- The result of loading an image: longer than 3584 bytes is refused (R172). -/
def loadResult (image : List Byte) : LoadResult :=
  if image.length > Config.romMax then .loadError else .loaded image.length

/-- `Reset(image)`: `Initialize()`, then byte `j` of the image at `0x200 + j` (R48, R171, R172). A refused image leaves the
machine as `Initialize` made it; that the host must not go on as if it were loaded is the host's duty (log
entry 9). -/
def State.resetWith (s : State) (image : List Byte) : State :=
  match loadResult image with
  | .loadError => s.initialized
  | .loaded _ => s.initialized.setMem (Memory.writeBytes s.font [] Config.progBase image)

/-- One step of a saturating counter (R152). -/
def countDown (b : Byte) : Byte := if b.toNat > 0 then b - 1 else b

/-- `Tick()`: each timer that is not zero is decremented, whether or not the machine is halted (R152). -/
def State.tick (s : State) : State := (s.setDelay (countDown s.delayTimer)).setSound (countDown s.soundTimer)

/-- `DisplayConsume()` once enabled: `dirty <- 0` (R155). -/
def State.consumed (s : State) : State := { s with dirty := false }

/-- The inputs of a `Cycle`, sampled once (R4). -/
def State.present (s : State) (keys : Keys) (rnd : Byte) : State :=
  { s with host := { s.host with keys := keys, rnd := rnd } }

/-- The operation the host performs next: the first of its queue, or, with nothing queued, a free one (R3; log
entry 2). -/
def State.nextOp (s : State) : HostOp :=
  match s.host.script with
  | op :: _ => op
  | [] => Config.hostOp s.host.drawn

/-- The state once the host has taken that operation from its queue, or drawn it. -/
def State.opTaken (s : State) : State :=
  match s.host.script with
  | _ :: rest => { s with host := { s.host with script := rest } }
  | [] => { s with host := { s.host with drawn := s.host.drawn + 1 } }

end Sys2Proof.Machine
end

