-- ==== Sys2Proof/Machine/Cycle.lean ====
section
/-! DEFINITION. The instruction cycle (spec/30_encoding.md R70) and the four operations of the host (R1), with what each
returns (R6). -/

namespace Sys2Proof.Machine

/-- The word at `PC`, its high byte at the lower address; `none` when `PC > 0xFFE` (R42, R60). No alignment is asked
for (R46). -/
def State.fetch (s : State) : Option Word :=
  match s.loadBytes s.pc.toNat 2 with
  | some (hi :: lo :: _) => some (joinBytes hi lo)
  | _ => none

/-- Decode and execute a fetched word (R70). -/
def decodeAndExecute (w : Word) (s : State) : Result :=
  match decodeWord w with
  | .ok i => exec i s
  | .error _ => .next (s.raise .decodeFailure w)

/-- `Cycle` with its inputs in the state: the `halted` gate, the fetch, the decode, the execution, first hit wins
(R70, R144, R145). -/
def cycle (s : State) : Result :=
  if s.halted then .next s
  else
    match s.fetch with
    | none => .next (s.raise .memoryRange 0)
    | some w => decodeAndExecute w s

/-- One operation of the host (R1). `DisplayConsume` with `dirty = 0` is not enabled (R155). -/
def perform (op : HostOp) (s : State) : Result :=
  match op with
  | .cycle keys rnd => cycle (s.present keys rnd)
  | .tick => .next s.tick
  | .displayConsume => if s.dirty then .next s.consumed else .fault .consumeNotEnabled
  | .reset image => .next (s.resetWith image)

/-- What an operation hands back to the host (R6). -/
inductive HostReturn where
  /-- `Cycle` returns the success/halt signal: `halted` after the cycle (R70). -/
  | signal (halted : Bool)
  /-- `Tick` returns nothing. -/
  | nothing
  /-- `DisplayConsume` returns a copy of the framebuffer (R155). -/
  | picture (fb : Framebuffer)
  /-- `Reset` returns the load result (R172). -/
  | load (r : LoadResult)
  /-- The operation did not take place. -/
  | notPerformed
  deriving DecidableEq, Repr

/-- The value an operation performed in `s` returns to the host (R6, R70, R155, R172). -/
def hostReturn (op : HostOp) (s : State) : HostReturn :=
  match op with
  | .cycle _ _ =>
    match perform op s with
    | .next t => .signal t.halted
    | _ => .notPerformed
  | .tick => .nothing
  | .displayConsume => if s.dirty then .picture s.fb else .notPerformed
  | .reset image => .load (loadResult image)

/-- Store the two bytes of a table word where the next cycle fetches, if they fit below 0x1000, and queue that cycle
with the inputs as they stand (log entry 4). -/
def State.placeWord (s : State) (nbits w : Nat) : State :=
  { (s.storeBytes s.pc.toNat (tableBytes nbits w)).getD s with
    host := { s.host with script := .cycle s.host.keys s.host.rnd :: s.host.script } }

end Sys2Proof.Machine
end

