-- ==== Sys2Proof/Machine/Step.lean ====
section
/-! DEFINITION. One step of the machine: one operation of the host, atomic (R1). -/

namespace Sys2Proof.Machine

/-- One step: the host's next operation is taken and performed. On this hardware an instruction runs in a step whose
operation is `Cycle`; the other steps are `Tick`, `DisplayConsume` and `Reset`, in any order (R3). -/
def step (s : State) : Host.Outcome State Fault Refusal := perform s.nextOp s.opTaken

/-- `s` with a table word placed where the next step fetches, the host's next operation being a `Cycle`. -/
def State.withFetchWord (s : State) (nbits w : Nat) : State := s.placeWord nbits w

end Sys2Proof.Machine
end

