-- ==== Sys2Proof/Safety.lean ====
section
/-! DEFINITION. The terms claims use: when an instruction raises (R140, R141), where the program counter goes (R26), what
an instruction leaves unchanged (its frame), what a sprite covers (R121), and the invariants of the machine.
Nothing here is used by the model itself: these are the spec's tables, written a second time from its words. -/

namespace Sys2Proof.Machine

/-- The own condition of each instruction, exhaustively: which instructions can raise what, and when (R140, R141).
An instruction executes normally exactly when this is `none`. -/
def ownCondition (i : Instr) (s : State) : Option Cause :=
  match i with
  | .ret => if s.sp.val = 0 then some .stackUnderflow else none
  | .call _ => if s.sp.val = 16 then some .stackOverflow else none
  | .drw _ _ n => if n.toNat > 0 ∧ s.index.toNat + n.toNat - 1 > 0xFFF then some .memoryRange else none
  | .ldB _ => if s.index.toNat + 2 > 0xFFF then some .memoryRange else none
  | .ldMemVx x => if s.index.toNat + x.toNat > 0xFFF then some .memoryRange else none
  | .ldVxMem x => if s.index.toNat + x.toNat > 0xFFF then some .memoryRange else none
  | .skp x => if (s.reg x).toNat > 0x0F then some .keyCodeRange else none
  | .sknp x => if (s.reg x).toNat > 0x0F then some .keyCodeRange else none
  | .cls | .jp _ | .seImm _ _ | .sneImm _ _ | .seReg _ _ | .ldImm _ _ | .addImm _ _ | .ldReg _ _ | .or _ _
  | .and _ _ | .xor _ _ | .addReg _ _ | .sub _ _ | .shr _ _ | .subn _ _ | .shl _ _ | .sneReg _ _ | .ldI _
  | .jpV0 _ | .rnd _ _ | .ldVxDt _ | .ldVxK _ | .ldDtVx _ | .ldStVx _ | .addI _ | .ldF _ => none

/-- The entry of the call stack below the next free one; 0 when there is none. -/
def State.topEntry (s : State) : Word := s.stack.toList.getD (s.sp.val - 1) 0

/-- How each instruction that raises nothing leaves `PC`: the table of R26. -/
def nextPc (i : Instr) (s : State) : Word :=
  match i with
  | .seImm x kk => if s.reg x = kk then s.pc + 4 else s.pc + 2
  | .sneImm x kk => if s.reg x ≠ kk then s.pc + 4 else s.pc + 2
  | .seReg x y => if s.reg x = s.reg y then s.pc + 4 else s.pc + 2
  | .sneReg x y => if s.reg x ≠ s.reg y then s.pc + 4 else s.pc + 2
  | .skp x => if s.host.keys.getLsbD (s.reg x).toNat = true then s.pc + 4 else s.pc + 2
  | .sknp x => if s.host.keys.getLsbD (s.reg x).toNat = false then s.pc + 4 else s.pc + 2
  | .jp nnn => nnn.setWidth 16
  | .call nnn => nnn.setWidth 16
  | .jpV0 nnn => BitVec.ofNat 16 (nnn.toNat + (s.reg 0).toNat)
  | .ret => s.topEntry + 2
  | .ldVxK _ => if s.host.keys = 0 then s.pc else s.pc + 2
  | .cls | .ldImm _ _ | .addImm _ _ | .ldReg _ _ | .or _ _ | .and _ _ | .xor _ _ | .addReg _ _ | .sub _ _ | .shr _ _
  | .subn _ _ | .shl _ _ | .ldI _ | .rnd _ _ | .drw _ _ _ | .ldVxDt _ | .ldDtVx _ | .ldStVx _ | .addI _ | .ldF _
  | .ldB _ | .ldMemVx _ | .ldVxMem _ => s.pc + 2

/-- Every general register reads as before, but those `P` names. -/
def SameRegsBut (P : Nibble → Prop) (s t : State) : Prop := ∀ r, ¬ P r → t.reg r = s.reg r

/-- Every general register reads as before. -/
def SameRegs (s t : State) : Prop := ∀ r, t.reg r = s.reg r

/-- Every byte of memory reads as before. -/
def SameMemory (s t : State) : Prop := ∀ a, t.byteAt a = s.byteAt a

/-- Every byte of memory outside the `n` bytes from `a` on reads as before. -/
def SameMemoryOutside (a n : Nat) (s t : State) : Prop := ∀ b, b < a ∨ a + n ≤ b → t.byteAt b = s.byteAt b

/-- The stack pointer and every entry of the stack are as before. -/
def SameStack (s t : State) : Prop := t.sp = s.sp ∧ t.stack = s.stack

/-- Both timers are as before. -/
def SameTimers (s t : State) : Prop := t.delayTimer = s.delayTimer ∧ t.soundTimer = s.soundTimer

/-- Every pixel and `dirty` are as before. -/
def SameDisplay (s t : State) : Prop := t.fb = s.fb ∧ t.dirty = s.dirty

/-- `halted` and the three report registers are as before (R22). -/
def SameReport (s t : State) : Prop :=
  t.halted = s.halted ∧ t.faultCause = s.faultCause ∧ t.faultPc = s.faultPc ∧ t.faultWord = s.faultWord

/-- The model's own fields about the host are as before. -/
def SameHost (s t : State) : Prop := t.host = s.host

/-- The parameter `FONT` of the machine is as before (R47). -/
def SameFont (s t : State) : Prop := t.font = s.font

/-- The frame of an instruction that writes general registers only: those `P` names, and `PC`. -/
def OnlyRegs (P : Nibble → Prop) (s t : State) : Prop :=
  SameRegsBut P s t ∧ t.index = s.index ∧ SameStack s t ∧ SameTimers s t ∧ SameMemory s t ∧ SameDisplay s t ∧
    SameReport s t ∧ SameHost s t ∧ SameFont s t

/-- The frame of an instruction that writes `PC` only. -/
def OnlyPc (s t : State) : Prop :=
  SameRegs s t ∧ t.index = s.index ∧ SameStack s t ∧ SameTimers s t ∧ SameMemory s t ∧ SameDisplay s t ∧
    SameReport s t ∧ SameHost s t ∧ SameFont s t

/-- The frame of an instruction that writes `I` and `PC` only. -/
def OnlyIndex (s t : State) : Prop :=
  SameRegs s t ∧ SameStack s t ∧ SameTimers s t ∧ SameMemory s t ∧ SameDisplay s t ∧ SameReport s t ∧ SameHost s t ∧ SameFont s t

/-- The frame of a call or a return: the stack and `PC` only. -/
def OnlyStack (s t : State) : Prop :=
  SameRegs s t ∧ t.index = s.index ∧ SameTimers s t ∧ SameMemory s t ∧ SameDisplay s t ∧ SameReport s t ∧ SameHost s t ∧ SameFont s t

/-- The frame of an instruction that writes timers and `PC` only. -/
def OnlyTimers (s t : State) : Prop :=
  SameRegs s t ∧ t.index = s.index ∧ SameStack s t ∧ SameMemory s t ∧ SameDisplay s t ∧ SameReport s t ∧ SameHost s t ∧ SameFont s t

/-- The frame of an instruction that stores `n` bytes from `a` on and writes `PC`. -/
def OnlyStores (a n : Nat) (s t : State) : Prop :=
  SameRegs s t ∧ t.index = s.index ∧ SameStack s t ∧ SameTimers s t ∧ SameMemoryOutside a n s t ∧ SameDisplay s t ∧
    SameReport s t ∧ SameHost s t ∧ SameFont s t

/-- The frame of the framebuffer instructions: pixels, `dirty`, the registers `P` names, `PC`. -/
def OnlyDisplay (P : Nibble → Prop) (s t : State) : Prop :=
  SameRegsBut P s t ∧ t.index = s.index ∧ SameStack s t ∧ SameTimers s t ∧ SameMemory s t ∧ SameReport s t ∧
    SameHost s t ∧ SameFont s t

/-- The pixel `(px, py)` is under a set bit of the `n`-row sprite at `I` drawn at column `Vx`, row `Vy`: for some row
`r` and column `c` the bit `row[7 - c]` is 1 and the pixel is `((Vx + c) mod 64, (Vy + r) mod 32)` (R121). -/
def SpriteCovers (s : State) (x y n : Nibble) (px : Fin 64) (py : Fin 32) : Prop :=
  ∃ r < n.toNat, ∃ c < 8, (s.byteAt (s.index.toNat + r)).getLsbD (7 - c) = true ∧
    px.val = ((s.reg x).toNat + c) % 64 ∧ py.val = ((s.reg y).toNat + r) % 32

/-- The report registers agree with `halted` (R22, R140, R142): 0 until the first fatal condition, and after it a code 1
to 5 and the `PC`, which still points at the instruction that faulted. -/
def ReportWf (s : State) : Prop :=
  (s.halted = false → s.faultCause = 0 ∧ s.faultPc = 0 ∧ s.faultWord = 0) ∧
  (s.halted = true → 1 ≤ s.faultCause.toNat ∧ s.faultCause.toNat ≤ 5 ∧ s.faultPc = s.pc)

/-- THE INVARIANT of the machine: memory in its canonical form; `PC` at most 0x10FE (R27, R87); every stack entry an
address a word was fetched from, at most 0xFFE (R15, R27); the report registers in agreement with `halted`. That
`SP` is 0 to 16 (R16) is its type. -/
def Inv (s : State) : Prop :=
  Memory.wf s.font s.mem = true ∧ s.pc.toNat ≤ 0x10FE ∧ (∀ k : Fin 16, s.stack[k.val].toNat ≤ 0xFFE) ∧ ReportWf s

/-- A safe run is one that is not halted: a fatal condition is "never a normal end" (R182). -/
def Running (s : State) : Prop := s.halted = false

/-- What the next cycle needs to execute an instruction normally: not halted, a word to fetch, an instruction in it,
and its own condition absent (R144, R178). -/
def CycleExecutes (s : State) (i : Instr) : Prop :=
  Running s ∧ (∃ w, s.fetch = some w ∧ decodeWord w = .ok i) ∧ ownCondition i s = none

/-- The registers an instruction may write: its destination, the block `V0` to `Vx` of `Fx65`, and `VF` for the six flag
writers (R11, R25). -/
def writesReg (i : Instr) (r : Nibble) : Bool :=
  match i with
  | .ldImm x _ | .addImm x _ | .ldReg x _ | .or x _ | .and x _ | .xor x _ | .rnd x _ | .ldVxDt x | .ldVxK x => r == x
  | .addReg x _ | .sub x _ | .shr x _ | .subn x _ | .shl x _ => r == x || r == 0xF#4
  | .drw _ _ _ => r == 0xF#4
  | .ldVxMem x => decide (r.toNat ≤ x.toNat)
  | .cls | .ret | .jp _ | .call _ | .seImm _ _ | .sneImm _ _ | .seReg _ _ | .sneReg _ _ | .ldI _ | .jpV0 _ | .skp _
  | .sknp _ | .ldDtVx _ | .ldStVx _ | .addI _ | .ldF _ | .ldB _ | .ldMemVx _ => false

/-- An instruction that completes by writing one general register: from every state it answers a next state in which
`x` holds `value`, `PC` is advanced by 2, and the frame holds. -/
def RegResult (i : Instr) (x : Nibble) (value : State → Byte) : Prop :=
  ∀ s : State, ∃ t, exec i s = .next t ∧ t.reg x = value s ∧ t.pc = s.pc + 2 ∧ OnlyRegs (· = x) s t

/-- A flag writer of R96 to R100: from every state it answers a next state in which `x` holds `value`, `VF` holds `flag`
unless `x` is `VF` itself, `PC` is advanced by 2, and nothing but `x` and `VF` changes. -/
def FlagResult (i : Instr) (x : Nibble) (flag value : State → Byte) : Prop :=
  ∀ s : State, ∃ t, exec i s = .next t ∧ t.reg x = value s ∧ (x ≠ 0xF#4 → t.reg 0xF#4 = flag s) ∧ t.pc = s.pc + 2 ∧
    OnlyRegs (fun r => r = x ∨ r = 0xF#4) s t

/-- A conditional skip: from every state it answers a next state in which `PC` is advanced by 4 when the condition holds
and by 2 when it does not, and nothing else changes. -/
def SkipResult (i : Instr) (cond : State → Prop) : Prop :=
  ∀ s : State, ∃ t, exec i s = .next t ∧ (cond s → t.pc = s.pc + 4) ∧ (¬ cond s → t.pc = s.pc + 2) ∧ OnlyPc s t

/-- An instruction that completes by writing `I`. -/
def IndexResult (i : Instr) (value : State → Word) : Prop :=
  ∀ s : State, ∃ t, exec i s = .next t ∧ t.index = value s ∧ t.pc = s.pc + 2 ∧ OnlyIndex s t

/-- Every piece of the core's state but memory is at its reset value (R25). -/
def CoreAtReset (t : State) : Prop :=
  (∀ r, t.reg r = 0) ∧ t.index = 0 ∧ t.pc = 0x200 ∧ t.sp.val = 0 ∧ (∀ k : Fin 16, t.stack[k.val] = 0) ∧
    t.delayTimer = 0 ∧ t.soundTimer = 0 ∧ (∀ px py, t.fb.pixel px py = false) ∧ t.dirty = false ∧ t.halted = false ∧
    t.faultCause = 0 ∧ t.faultPc = 0 ∧ t.faultWord = 0

end Sys2Proof.Machine
end

