-- ==== Sys2Proof/Certificates/Slice0/Obligations.lean ====
section
/-! DEFINITION. The statements for the provers, from the numbered rules of spec/. Each docstring names the rules; where a
statement rests on a decision the spec marks as its own, or on a choice of the model, the docstring says so and names
the log entry under notes/assumptions/. -/

open Sys2Proof Sys2Proof.Machine

/-- Words written out in spec/95_test_vectors.md section 2.1 decode to the instructions named there, one per family,
and words of spec section 2.9 are decode failures. -/
def Obligations.SpecWordsDecode : Prop :=
  decodeWord 0x1234 = .ok (.jp 0x234) ∧ decode [0x34, 0x12] = .ok (.seImm 4 0x12, []) ∧
  decodeWord 0x8AB4 = .ok (.addReg 0xA 0xB) ∧ decodeWord 0xD12F = .ok (.drw 1 2 15) ∧
  decodeWord 0xF70A = .ok (.ldVxK 7) ∧ decodeWord 0xE09E = .ok (.skp 0) ∧ decodeWord 0x00EE = .ok .ret ∧
  decodeWord 0x0000 = .error (.unknownFamily0 0x0000) ∧ decodeWord 0x8128 = .error (.unknownFamily8 0x8128)

/-- R60, R42, R70: a step whose operation is a `Cycle`, in a running machine whose two bytes at `PC` decode to `i`, is
`exec i`. Around it the step does two things in the model's own fields: it takes the operation from the host's
queue (`opTaken`) and presents its inputs (`present`, R4; log entry 2). -/
def Obligations.StepRunsDecodedInstruction : Prop :=
  ∀ (s : State) (k : Keys) (r : Byte) (i : Instr), s.nextOp = .cycle k r → s.halted = false → s.pc.toNat ≤ 0xFFE →
    decodeWord (joinBytes (s.byteAt s.pc.toNat) (s.byteAt (s.pc.toNat + 1))) = .ok i →
    step s = exec i (s.opTaken.present k r)

/-- R144, R145, R60, R69: what stops a cycle before it executes, first hit wins: the halted gate (nothing changes), the
fetch range, the decode. The order and the report are the spec's own decisions D4, D6, D17 (log
entries 6, 18, 19). -/
def Obligations.CycleGatesInOrder : Prop :=
  ∀ s : State,
    (s.halted = true → cycle s = .next s) ∧
    (s.halted = false → s.pc.toNat > 0xFFE → cycle s = .next (s.raise .memoryRange 0x0000)) ∧
    (s.halted = false → s.pc.toNat ≤ 0xFFE → ∀ e,
      decodeWord (joinBytes (s.byteAt s.pc.toNat) (s.byteAt (s.pc.toNat + 1))) = .error e →
      cycle s = .next (s.raise .decodeFailure
        (joinBytes (s.byteAt s.pc.toNat) (s.byteAt (s.pc.toNat + 1)))))

/-- R42: fetch is big-endian, the byte at `PC` the high byte, from any `PC` up to 0xFFE, even or odd: that no alignment
is asked for is R46, the spec's own decision D8 (log entry 20). -/
def Obligations.FetchIsBigEndian : Prop :=
  ∀ s : State, s.pc.toNat ≤ 0xFFE → ∃ w, s.fetch = some w ∧
    w.extractLsb' 8 8 = s.byteAt s.pc.toNat ∧ w.extractLsb' 0 8 = s.byteAt (s.pc.toNat + 1)

/-- R170: `Initialize` puts every piece of state at its reset value, from every state; memory holds the machine's `FONT` at
0x000 to 0x04F and 0 above it. `FONT` is any 80 bytes: nothing is said of their values, nor of the default the reset
state takes for them (R47; log entry 1). -/
def Obligations.InitializeSetsEverything : Prop :=
  Config.fontSize = 80 ∧ ∀ (s : State) (f : Font) (t : State),
    ((t = s.initialized ∧ f = s.font) ∨ t = State.atReset f ∨ (t = State.reset ∧ f = defaultFont)) →
    CoreAtReset t ∧ t.font = f ∧ (∀ a : Nat, (h : a < Config.fontSize) → t.byteAt a = f[a]) ∧
    (∀ a : Nat, 0x50 ≤ a → t.byteAt a = 0)

/-- R47: the parameter `FONT` belongs to the machine: no step, whatever the host does, changes it, and after a `Reset` the
glyph of digit `d` is its bytes `5 * d` to `5 * d + 4`, at the address `Fx29` gives for `d`. That
`FONT` is a parameter is the spec's own decision D13; no byte value is stated (log entry 1). -/
def Obligations.FontBelongsToMachine : Prop :=
  (∀ s t : State, step s = .next t → SameFont s t) ∧
  (∀ (s : State) (image : List Byte) (x d : Nibble) (t u : State),
    s.nextOp = .reset image → step s = .next t → exec (.ldF x) (t.setReg x (d.setWidth 8)) = .next u →
    ∀ j : Fin 5, u.byteAt (u.index.toNat + j.val) =
      s.font[5 * d.toNat + j.val]'(by unfold Config.fontSize; omega))

/-- The reset state satisfies the invariant (R25, R27, R16). -/
def Obligations.ResetSatisfiesInvariant : Prop := Inv State.reset

/-- Every step keeps the invariant: memory canonical; `PC` at most 0x10FE and never wrapped (R27); every stack entry an
address a word was fetched from (R15); the report registers 0 while running and, once halted, a cause 1 to 5 and the
`PC` that faulted (R22, R142). Whatever the host does. The `PC` bound is the spec's decision D7, the report D4 (log
entries 6 and 7); the canonical form is the model's. -/
def Obligations.StepKeepsInvariant : Prop :=
  ∀ s t : State, Inv s → step s = .next t → Inv t

/-- Decoding an encoded instruction gives it back, at every value of every operand, from its word and from its two bytes
whatever follows them (R61 to R68). -/
def Obligations.DecodeOfEncode : Prop :=
  ∀ i : Instr, decodeWord (encode i) = .ok i ∧ ∀ rest : List Byte, decode (encodeBytes i ++ rest) = .ok (i, rest)

/-- Each word has at most one meaning: what a word decodes to encodes to that word (R63, R72). -/
def Obligations.EncodeOfDecode : Prop :=
  ∀ (w : Word) (i : Instr), decodeWord w = .ok i → encode i = w

/-- R63: the decoder, written by families, agrees with the opcode map written by mask and match: a word decodes exactly
when a row accepts it, then to the instruction of that row, and the rows are mutually exclusive. -/
def Obligations.DecodeFollowsOpcodeMap : Prop :=
  (∀ w : Word, legalWord w = true ↔ ∃ i, decodeWord w = .ok i) ∧
  (∀ (w : Word) (i : Instr), decodeWord w = .ok i → ∀ r ∈ opcodeRows, r.accepts w = true → r.mnemonic = i.mnemonic) ∧
  (∀ w : Word, ∀ r ∈ opcodeRows, ∀ q ∈ opcodeRows, r.accepts w = true → q.accepts w = true → r = q)

/-- R64 to R69: the decode failures are exactly the second-level mismatches, family by family. -/
def Obligations.DecodeFailuresByFamily : Prop :=
  ∀ w : Word, (∃ e, decodeWord w = .error e) ↔
    (w.toNat / 4096 = 0 ∧ w ≠ 0x00E0 ∧ w ≠ 0x00EE) ∨
    (w.toNat / 4096 = 5 ∧ w.toNat % 16 ≠ 0) ∨
    (w.toNat / 4096 = 8 ∧ w.toNat % 16 ∈ [8, 9, 10, 11, 12, 13, 15]) ∨
    (w.toNat / 4096 = 9 ∧ w.toNat % 16 ≠ 0) ∨
    (w.toNat / 4096 = 14 ∧ w.toNat % 256 ∉ [0x9E, 0xA1]) ∨
    (w.toNat / 4096 = 15 ∧ w.toNat % 256 ∉ [0x07, 0x0A, 0x15, 0x18, 0x1E, 0x29, 0x33, 0x55, 0x65])

/-- R81: `1nnn` jumps to `nnn`, and nothing but `PC` changes. -/
def Obligations.JumpGoesToAddress : Prop :=
  ∀ (nnn : Addr) (s : State), ∃ t, exec (.jp nnn) s = .next t ∧ t.pc = nnn.setWidth 16 ∧ OnlyPc s t

/-- R82: `2nnn` pushes its own address and jumps, unless sixteen calls are outstanding; then it raises `StackOverflow`
and nothing else happens. -/
def Obligations.CallPushesOwnAddress : Prop :=
  ∀ (nnn : Addr) (s : State),
    (s.sp.val ≠ 16 → ∃ t, exec (.call nnn) s = .next t ∧
      (∀ k : Fin 16, t.stack[k.val] = if k.val = s.sp.val then s.pc else s.stack[k.val]) ∧
      t.sp.val = s.sp.val + 1 ∧ t.pc = nnn.setWidth 16 ∧ OnlyStack s t) ∧
    (s.sp.val = 16 → exec (.call nnn) s = .next (s.raise .stackOverflow (encode (.call nnn))))

/-- R80: `00EE` pops the address of the call and goes on two bytes after it; the popped entry keeps its value; with no
call outstanding it raises `StackUnderflow`. -/
def Obligations.ReturnGoesAfterCall : Prop :=
  ∀ s : State,
    (s.sp.val ≠ 0 → ∃ t, exec .ret s = .next t ∧ (∀ k : Fin 16, k.val + 1 = s.sp.val → t.pc = s.stack[k.val] + 2) ∧
      t.sp.val + 1 = s.sp.val ∧ t.stack = s.stack ∧ OnlyStack s t) ∧
    (s.sp.val = 0 → exec .ret s = .next (s.raise .stackUnderflow 0x00EE))

/-- R87: `Bnnn` jumps to `nnn + V0`, a sum that is not reduced to 12 bits and does not wrap. That `PC` may come to lie above
0xFFF, with no fault at the jump, is the spec's own decision D7 (log entry 7). -/
def Obligations.JumpWithOffsetAddsV0 : Prop :=
  ∀ (nnn : Addr) (s : State), ∃ t, exec (.jpV0 nnn) s = .next t ∧ t.pc.toNat = nnn.toNat + (s.reg 0).toNat ∧ OnlyPc s t

/-- R83 to R86: the four register skips advance `PC` by 4 when their condition holds and by 2 when it does not. -/
def Obligations.SkipsAdvanceByFourOrTwo : Prop :=
  ∀ (x y : Nibble) (kk : Byte),
    SkipResult (.seImm x kk) (fun s => s.reg x = kk) ∧ SkipResult (.sneImm x kk) (fun s => s.reg x ≠ kk) ∧
    SkipResult (.seReg x y) (fun s => s.reg x = s.reg y) ∧ SkipResult (.sneReg x y) (fun s => s.reg x ≠ s.reg y)

/-- R90, R91: load immediate, and add immediate modulo 256 with no carry out (`VF` changes only as the destination). -/
def Obligations.ImmediateLoadsAndAdds : Prop :=
  ∀ (x : Nibble) (kk : Byte), RegResult (.ldImm x kk) x (fun _ => kk) ∧
    RegResult (.addImm x kk) x (fun s => BitVec.ofNat 8 (((s.reg x).toNat + kk.toNat) % 256))

/-- R92 to R95: move, or, and, exclusive or, with no effect on `VF` but as the destination. -/
def Obligations.MovesAndLogic : Prop :=
  ∀ x y : Nibble, RegResult (.ldReg x y) x (fun s => s.reg y) ∧
    RegResult (.or x y) x (fun s => s.reg x ||| s.reg y) ∧ RegResult (.and x y) x (fun s => s.reg x &&& s.reg y) ∧
    RegResult (.xor x y) x (fun s => s.reg x ^^^ s.reg y)

/-- R96, R97, R99: add with carry, subtract, reverse subtract: the result modulo 256 in `Vx`, and in `VF` the carry
(sum above 255) or the strict greater-than. That with `x = 0xF` the result stays in `VF` and with `y = 0xF` the old
`VF` is the operand is the spec's own decision D3 (R14, R103; log entry 5). -/
def Obligations.AddAndSubtractWriteFlag : Prop :=
  ∀ x y : Nibble,
    FlagResult (.addReg x y) x (fun s => if (s.reg x).toNat + (s.reg y).toNat > 255 then 1 else 0)
      (fun s => BitVec.ofNat 8 (((s.reg x).toNat + (s.reg y).toNat) % 256)) ∧
    FlagResult (.sub x y) x (fun s => if (s.reg x).toNat > (s.reg y).toNat then 1 else 0)
      (fun s => BitVec.ofNat 8 (((s.reg x).toNat + 256 - (s.reg y).toNat) % 256)) ∧
    FlagResult (.subn x y) x (fun s => if (s.reg y).toNat > (s.reg x).toNat then 1 else 0)
      (fun s => BitVec.ofNat 8 (((s.reg y).toNat + 256 - (s.reg x).toNat) % 256))

/-- R98, R100: the shifts move `Vx` one place in place, the bit shifted out in `VF`; the `y` field has no effect. With
`x = 0xF` the result stays in `VF`: the spec's own decision D3 (log entry 5). -/
def Obligations.ShiftsWriteFlag : Prop :=
  ∀ x y : Nibble,
    FlagResult (.shr x y) x (fun s => BitVec.ofNat 8 ((s.reg x).toNat % 2))
      (fun s => BitVec.ofNat 8 ((s.reg x).toNat / 2)) ∧
    FlagResult (.shl x y) x (fun s => BitVec.ofNat 8 ((s.reg x).toNat / 128))
      (fun s => BitVec.ofNat 8 (((s.reg x).toNat * 2) % 256))

/-- R101: `Cxkk` masks the random byte of this cycle, whatever that byte is; no bit outside the mask is ever set. -/
def Obligations.RandomByteIsMasked : Prop :=
  ∀ (x : Nibble) (kk : Byte), RegResult (.rnd x kk) x (fun s => s.host.rnd &&& kk) ∧
    ∀ s t : State, exec (.rnd x kk) s = .next t → t.reg x &&& ~~~kk = 0

/-- R110: `Annn` loads `nnn` into `I`. -/
def Obligations.IndexLoadsImmediate : Prop :=
  ∀ nnn : Addr, IndexResult (.ldI nnn) (fun _ => nnn.setWidth 16)

/-- R111, R112: `Fx1E` adds `Vx` to `I` modulo 65536 and `Fx29` loads `5 * Vx`, 0 to 1275; neither writes a flag. The wrap
at 16 bits and that `Vx` is not masked are the spec's own decision D9 (log entry 21). -/
def Obligations.IndexArithmetic : Prop :=
  ∀ x : Nibble, IndexResult (.addI x) (fun s => BitVec.ofNat 16 ((s.index.toNat + (s.reg x).toNat) % 65536)) ∧
    IndexResult (.ldF x) (fun s => BitVec.ofNat 16 (5 * (s.reg x).toNat)) ∧
    ∀ s t : State, exec (.ldF x) s = .next t → t.index.toNat = 5 * (s.reg x).toNat

/-- R113: `Fx33` stores the hundreds, tens and ones digit of `Vx` at `I`, `I + 1`, `I + 2` and changes no other byte; out
of range it raises `MemoryRange` and stores nothing. The premise that memory is canonical is part of the invariant
`Inv`, which `StepKeepsInvariant` states. -/
def Obligations.BcdStoresThreeDigits : Prop :=
  ∀ (x : Nibble) (s : State), Memory.wf s.font s.mem = true →
    (s.index.toNat + 2 ≤ 0xFFF → ∃ t, exec (.ldB x) s = .next t ∧
      (t.byteAt s.index.toNat).toNat = (s.reg x).toNat / 100 ∧
      (t.byteAt (s.index.toNat + 1)).toNat = (s.reg x).toNat / 10 % 10 ∧
      (t.byteAt (s.index.toNat + 2)).toNat = (s.reg x).toNat % 10 ∧
      t.pc = s.pc + 2 ∧ OnlyStores s.index.toNat 3 s t) ∧
    (s.index.toNat + 2 > 0xFFF → exec (.ldB x) s = .next (s.raise .memoryRange (encode (.ldB x))))

/-- R114: `Fx55` stores `V0` to `Vx` at `I` to `I + x` and changes no other byte, and not `I`; out of range it raises
`MemoryRange` and stores nothing. -/
def Obligations.BlockStoreWritesRegisters : Prop :=
  ∀ (x : Nibble) (s : State), Memory.wf s.font s.mem = true →
    (s.index.toNat + x.toNat ≤ 0xFFF → ∃ t, exec (.ldMemVx x) s = .next t ∧
      (∀ r : Nibble, r.toNat ≤ x.toNat → t.byteAt (s.index.toNat + r.toNat) = s.reg r) ∧
      t.pc = s.pc + 2 ∧ OnlyStores s.index.toNat (x.toNat + 1) s t) ∧
    (s.index.toNat + x.toNat > 0xFFF → exec (.ldMemVx x) s = .next (s.raise .memoryRange (encode (.ldMemVx x))))

/-- R115: `Fx65` loads `V0` to `Vx` from `I` to `I + x`; the registers above `Vx`, `I` and memory are unchanged; out of
range it raises `MemoryRange` and loads nothing. -/
def Obligations.BlockLoadReadsRegisters : Prop :=
  ∀ (x : Nibble) (s : State),
    (s.index.toNat + x.toNat ≤ 0xFFF → ∃ t, exec (.ldVxMem x) s = .next t ∧
      (∀ r : Nibble, r.toNat ≤ x.toNat → t.reg r = s.byteAt (s.index.toNat + r.toNat)) ∧
      t.pc = s.pc + 2 ∧ OnlyRegs (fun r => r.toNat ≤ x.toNat) s t) ∧
    (s.index.toNat + x.toNat > 0xFFF → exec (.ldVxMem x) s = .next (s.raise .memoryRange (encode (.ldVxMem x))))

/-- R120: `00E0` clears every pixel, sets `dirty`, advances `PC`, and touches no register. -/
def Obligations.ClearScreenClearsAll : Prop :=
  ∀ s : State, ∃ t, exec .cls s = .next t ∧ (∀ px py, t.fb.pixel px py = false) ∧ t.dirty = true ∧ t.pc = s.pc + 2 ∧
    OnlyDisplay (fun _ => False) s t

/-- R121, R122: `Dxyn` toggles exactly the pixels under a set sprite bit, wrapped at the edges, and leaves in `VF` whether
any of them was set; `dirty` is set; out of range it raises `MemoryRange` with no effect. That the coordinates are
the values before `VF` is cleared, and that `n = 0` draws nothing, are the spec's own decisions D3 and D19 (log
entries 5 and 23). -/
def Obligations.DrawTogglesSprite : Prop :=
  ∀ (x y n : Nibble) (s : State),
    ((n.toNat = 0 ∨ s.index.toNat + n.toNat - 1 ≤ 0xFFF) → ∃ t, exec (.drw x y n) s = .next t ∧
      (∀ px py, SpriteCovers s x y n px py → t.fb.pixel px py = !s.fb.pixel px py) ∧
      (∀ px py, ¬ SpriteCovers s x y n px py → t.fb.pixel px py = s.fb.pixel px py) ∧
      ((∃ px py, SpriteCovers s x y n px py ∧ s.fb.pixel px py = true) → t.reg 0xF#4 = 1) ∧
      ((¬ ∃ px py, SpriteCovers s x y n px py ∧ s.fb.pixel px py = true) → t.reg 0xF#4 = 0) ∧
      t.dirty = true ∧ t.pc = s.pc + 2 ∧ OnlyDisplay (· = 0xF#4) s t) ∧
    (n.toNat > 0 → s.index.toNat + n.toNat - 1 > 0xFFF →
      exec (.drw x y n) s = .next (s.raise .memoryRange (encode (.drw x y n))))

/-- R123: drawing the same sprite twice restores every pixel; drawn on a previously empty place it reports no collision
the first time, and the second time a collision exactly when it has a set bit. With `x` or `y` equal to 0xF the second
draw has other coordinates, since the first wrote `VF`: those forms are in `DrawTogglesSprite`. -/
def Obligations.DrawTwiceRestores : Prop :=
  ∀ (x y n : Nibble) (s : State), x ≠ 0xF#4 → y ≠ 0xF#4 → (n.toNat = 0 ∨ s.index.toNat + n.toNat - 1 ≤ 0xFFF) →
    ∃ t u, exec (.drw x y n) s = .next t ∧ exec (.drw x y n) t = .next u ∧ u.fb = s.fb ∧
      ((∀ px py, SpriteCovers s x y n px py → s.fb.pixel px py = false) →
        t.reg 0xF#4 = 0 ∧ (u.reg 0xF#4 = 1 ↔ ∃ px py, SpriteCovers s x y n px py))

/-- R130, R131: the key skips test the key whose code is in `Vx`; a code above 15 raises `KeyCodeRange`, which is the
spec's own decision D10 (log entry 8). -/
def Obligations.KeySkipsTestOneKey : Prop :=
  ∀ (x : Nibble) (s : State),
    ((s.reg x).toNat ≤ 15 →
      (∃ t, exec (.skp x) s = .next t ∧ OnlyPc s t ∧
        t.pc = if s.host.keys.getLsbD (s.reg x).toNat = true then s.pc + 4 else s.pc + 2) ∧
      (∃ t, exec (.sknp x) s = .next t ∧ OnlyPc s t ∧
        t.pc = if s.host.keys.getLsbD (s.reg x).toNat = false then s.pc + 4 else s.pc + 2)) ∧
    ((s.reg x).toNat > 15 → exec (.skp x) s = .next (s.raise .keyCodeRange (encode (.skp x))) ∧
      exec (.sknp x) s = .next (s.raise .keyCodeRange (encode (.sknp x))))

/-- R132: `Fx0A` with no key down changes nothing at all; with keys down it takes the lowest code, 0xF included, and
goes on. That the lowest wins and no release is waited for is the spec's own decision D11 (log entry 22). -/
def Obligations.WaitForKeyTakesLowest : Prop :=
  ∀ (x : Nibble) (s : State),
    (s.host.keys = 0 → exec (.ldVxK x) s = .next s) ∧
    (s.host.keys ≠ 0 → ∃ k t, k < 16 ∧ s.host.keys.getLsbD k = true ∧ (∀ j < k, s.host.keys.getLsbD j = false) ∧
      exec (.ldVxK x) s = .next t ∧ (t.reg x).toNat = k ∧ t.pc = s.pc + 2 ∧ OnlyRegs (· = x) s t)

/-- R133 to R135: reading the delay timer, and setting either timer, which replaces its count. -/
def Obligations.TimerInstructions : Prop :=
  ∀ x : Nibble, RegResult (.ldVxDt x) x (fun s => s.delayTimer) ∧
    (∀ s : State, ∃ t, exec (.ldDtVx x) s = .next t ∧ t.delayTimer = s.reg x ∧ t.soundTimer = s.soundTimer ∧
      t.pc = s.pc + 2 ∧ OnlyTimers s t) ∧
    (∀ s : State, ∃ t, exec (.ldStVx x) s = .next t ∧ t.soundTimer = s.reg x ∧ t.delayTimer = s.delayTimer ∧
      t.pc = s.pc + 2 ∧ OnlyTimers s t)

/-- R26, the whole table: how each of the 34 instructions leaves `PC`, and that it is unchanged by an instruction that
raises a fatal condition, by a decode failure and by a fetch fault. When an instruction raises is the table of R140 and
R141, where the key code range is the spec's own decision D10 (log entry 8); that a fault leaves `PC` is R143, decision
D5 (log entry 17); that `nnn + V0` is not reduced is decision D7 (log entry 7). -/
def Obligations.ProgramCounterTable : Prop :=
  (∀ (i : Instr) (s : State), ownCondition i s = none → ∃ t, exec i s = .next t ∧ t.pc = nextPc i s) ∧
  (∀ (i : Instr) (s : State) (c : Cause), ownCondition i s = some c → ∃ t, exec i s = .next t ∧ t.pc = s.pc) ∧
  (∀ s : State, s.halted = false → (s.fetch = none ∨ ∃ w e, s.fetch = some w ∧ decodeWord w = .error e) →
    ∃ t, cycle s = .next t ∧ t.pc = s.pc)

/-- R140, R141, R143: an instruction raises exactly when the table of own conditions says so, with its own word in the
report and none of its effect; otherwise it goes on and the report registers stay. The codes, the report and that
faults are precise are the spec's own decisions D4 and D5 (log entries 6 and 17). -/
def Obligations.InstructionsRaiseExactlyTheirOwn : Prop :=
  ∀ (i : Instr) (s : State),
    (∀ c, ownCondition i s = some c → exec i s = .next (s.raise c (encode i))) ∧
    (ownCondition i s = none → ∃ t, exec i s = .next t ∧ SameReport s t)

/-- R142, R143: `raise` writes `halted` and the three report registers, as the table of codes says, and nothing else.
The registers and codes are the spec's own decision D4 (log entry 6). -/
def Obligations.RaiseWritesReportOnly : Prop :=
  ∀ (s : State) (c : Cause) (w : Word),
    (s.raise c w).halted = true ∧ (s.raise c w).faultPc = s.pc ∧ (s.raise c w).faultWord = w ∧
    (s.raise c w).faultCause.toNat = (match c with
      | .decodeFailure => 1 | .stackOverflow => 2 | .stackUnderflow => 3 | .memoryRange => 4 | .keyCodeRange => 5) ∧
    (s.raise c w).pc = s.pc ∧ OnlyPc s { s.raise c w with
      halted := s.halted, faultCause := s.faultCause, faultPc := s.faultPc, faultWord := s.faultWord }

/-- R140, R141, R144: a cycle halts a running machine only for one of the causes of the table, and reports that cause. -/
def Obligations.CycleHaltsOnlyForCause : Prop :=
  ∀ s t : State, s.halted = false → cycle s = .next t → t.halted = true →
    (s.fetch = none ∧ t = s.raise .memoryRange 0) ∨
    (∃ w e, s.fetch = some w ∧ decodeWord w = .error e ∧ t = s.raise .decodeFailure w) ∨
    (∃ w i c, s.fetch = some w ∧ decodeWord w = .ok i ∧ ownCondition i s = some c ∧ t = s.raise c w)

/-- R145, R146: from a halted machine no operation but `Reset` leaves the halt or changes anything but the timers and
`dirty`, which only `Tick` and `DisplayConsume` change; `Reset` leaves it. Decisions D15 to D17 and D25 of the spec (log
entries 12, 13, 19 and 24). -/
def Obligations.HaltIsLeftByResetOnly : Prop :=
  ∀ s t : State, s.halted = true → step s = .next t →
    ((∃ image, s.nextOp = .reset image) → t.halted = false ∧ t.faultCause = 0) ∧
    ((∀ image, s.nextOp ≠ .reset image) → SameReport s t ∧ SameRegs s t ∧ t.index = s.index ∧ t.pc = s.pc ∧
      SameStack s t ∧ SameMemory s t ∧ t.fb = s.fb ∧ (s.nextOp ≠ .tick → SameTimers s t) ∧
      (s.nextOp ≠ .displayConsume → t.dirty = s.dirty))

/-- R11, R10: a register changes only in an instruction that names it as destination, the block load, or, for `VF`, the
six flag writers; and each of the six leaves 0 or 1 in `VF`, whatever it held: the five of R103 when `x` is not 0xF,
and `Dxyn`, whose `x` is no destination, whenever it raises nothing. That with `x` equal to 0xF the result replaces the
flag is the spec's own decision D3 (log entry 5). -/
def Obligations.RegistersWrittenOnlyWhereNamed : Prop :=
  (∀ (i : Instr) (s t : State) (r : Nibble), exec i s = .next t → writesReg i r = false → t.reg r = s.reg r) ∧
  (∀ (x y : Nibble) (s t : State), x ≠ 0xF#4 →
    (exec (.addReg x y) s = .next t ∨ exec (.sub x y) s = .next t ∨ exec (.shr x y) s = .next t ∨
      exec (.subn x y) s = .next t ∨ exec (.shl x y) s = .next t) → t.reg 0xF#4 = 0 ∨ t.reg 0xF#4 = 1) ∧
  (∀ (x y n : Nibble) (s t : State), ownCondition (.drw x y n) s = none → exec (.drw x y n) s = .next t →
    t.reg 0xF#4 = 0 ∨ t.reg 0xF#4 = 1)

/-- R2, R12, R15, R17 to R19, R50: each piece of state has its writers among the instructions, and no other instruction
changes it; no instruction changes the model's host fields or the parameter `FONT`. -/
def Obligations.EachStateHasItsWriters : Prop :=
  ∀ (i : Instr) (s t : State), exec i s = .next t →
    ((∀ nnn x, i ≠ .ldI nnn ∧ i ≠ .addI x ∧ i ≠ .ldF x) → t.index = s.index) ∧
    ((∀ nnn, i ≠ .call nnn ∧ i ≠ .ret) → SameStack s t) ∧
    ((∀ x, i ≠ .ldDtVx x) → t.delayTimer = s.delayTimer) ∧ ((∀ x, i ≠ .ldStVx x) → t.soundTimer = s.soundTimer) ∧
    ((∀ x, i ≠ .ldB x ∧ i ≠ .ldMemVx x) → t.mem = s.mem) ∧
    ((∀ x y n, i ≠ .cls ∧ i ≠ .drw x y n) → SameDisplay s t) ∧ SameHost s t ∧ SameFont s t

/-- R4: `keys` is read only by `Ex9E`, `ExA1`, `Fx0A`, and `rnd` only by `Cxkk`: with any other input the outcome of any
other instruction is the same. That they are inputs of the cycle is the spec's own decision D2 (log entry 2). -/
def Obligations.InputsReadOnlyByTheirInstructions : Prop :=
  (∀ (i : Instr) (s t : State) (k : Keys), (∀ x, i ≠ .skp x ∧ i ≠ .sknp x ∧ i ≠ .ldVxK x) → exec i s = .next t →
    exec i (s.present k s.host.rnd) = .next (t.present k s.host.rnd)) ∧
  (∀ (i : Instr) (s t : State) (r : Byte), (∀ x kk, i ≠ .rnd x kk) → exec i s = .next t →
    exec i (s.present s.host.keys r) = .next (t.present s.host.keys r))

/-- R152: `Tick` decrements each timer that is not zero and changes nothing else, halted or not (decision D15, log
entry 13). -/
def Obligations.TickDecrementsBothTimers : Prop :=
  ∀ s : State, s.nextOp = .tick → ∃ t, step s = .next t ∧
    t.delayTimer.toNat = s.delayTimer.toNat - 1 ∧ t.soundTimer.toNat = s.soundTimer.toNat - 1 ∧
    SameRegs s t ∧ t.index = s.index ∧ t.pc = s.pc ∧ SameStack s t ∧ SameMemory s t ∧ SameDisplay s t ∧
    SameReport s t ∧ t.host = s.opTaken.host

/-- R152: after `n` ticks a timer is `max(0, v - n)`: it saturates at 0 and never wraps (decision D15, log entry 13). -/
def Obligations.TicksSaturateAtZero : Prop :=
  ∀ (n : Nat) (s : State), ((State.tick^[n]) s).delayTimer.toNat = s.delayTimer.toNat - n ∧
    ((State.tick^[n]) s).soundTimer.toNat = s.soundTimer.toNat - n

/-- R155: `DisplayConsume` with `dirty` set hands the host the framebuffer and clears `dirty`, nothing else; with `dirty`
clear it cannot occur, which the model says by a fault of its own (decision D16, log entry 12). -/
def Obligations.DisplayConsumeClearsDirty : Prop :=
  ∀ s : State, s.nextOp = .displayConsume →
    (s.dirty = true → hostReturn .displayConsume s = .picture s.fb ∧ ∃ t, step s = .next t ∧ t.dirty = false ∧
      SameRegs s t ∧ t.index = s.index ∧ t.pc = s.pc ∧ SameStack s t ∧ SameTimers s t ∧ SameMemory s t ∧
      t.fb = s.fb ∧ SameReport s t ∧ t.host = s.opTaken.host) ∧
    (s.dirty = false → step s = .fault .consumeNotEnabled)

/-- R171, R172, R175: `Reset(image)` leaves every piece of state at its reset value and byte `j` of an image of at most
3584 bytes at `0x200 + j`, and returns the length; a longer image is refused with a load error and the machine is as
`Initialize` made it. Binding the load to reset and refusing rather than truncating are the spec's own decision D12
(log entry 9). -/
def Obligations.ResetLoadsImage : Prop :=
  ∀ (s : State) (image : List Byte), s.nextOp = .reset image → ∃ t, step s = .next t ∧ CoreAtReset t ∧
    t.host = s.opTaken.host ∧ SameFont s t ∧
    (image.length ≤ 3584 → hostReturn (.reset image) s = .load (.loaded image.length) ∧
      (∀ a, t.byteAt a = if 0x200 ≤ a ∧ a < 0x200 + image.length then image.getD (a - 0x200) 0
        else s.initialized.byteAt a)) ∧
    (image.length > 3584 → hostReturn (.reset image) s = .load .loadError ∧
      ∀ a, t.byteAt a = s.initialized.byteAt a)

/-- R6, R70: the signal a `Cycle` returns is `halted` after the cycle, and a cycle always returns one. -/
def Obligations.CycleReturnsHaltSignal : Prop :=
  ∀ (s : State) (k : Keys) (r : Byte), ∃ t, cycle (s.present k r) = .next t ∧
    hostReturn (.cycle k r) s = .signal t.halted

/-- No instruction stops the model: from every state each answers a next state, and a step answers a next state but for a
`DisplayConsume` that is not enabled (R140, R155; log entry 12). -/
def Obligations.StepAlwaysAnswers : Prop :=
  (∀ (i : Instr) (s : State), ∃ t, exec i s = .next t) ∧
  ∀ s : State, (∃ t, step s = .next t) ∨ (s.nextOp = .displayConsume ∧ s.dirty = false)

/-- R53, R42: bytes stored by `Fx55` are the word the next fetch there reads, `V0` the high byte and `V1` the low one, with
nothing in between: self-modifying code needs no fence. -/
def Obligations.StoreIsSeenByFetch : Prop :=
  ∀ (x : Nibble) (s t : State), Memory.wf s.font s.mem = true → 1 ≤ x.toNat → s.index.toNat + x.toNat ≤ 0xFFF →
    exec (.ldMemVx x) s = .next t → (t.setPc s.index).fetch = some (joinBytes (s.reg 0) (s.reg 1))

/-- The document's property of calls (spec/95_test_vectors.md S2; R80, R82): a return after a call comes back to the
instruction after it, with `SP` and every register as before. -/
def Obligations.CallThenReturnComesBack : Prop :=
  ∀ (nnn : Addr) (s : State), s.sp.val ≠ 16 → ∃ t u, exec (.call nnn) s = .next t ∧ exec .ret t = .next u ∧
    u.pc = s.pc + 2 ∧ u.sp = s.sp ∧ SameRegs s u ∧ u.index = s.index ∧ SameMemory s u

/-- The document's round-trip property (S6; R114, R115): after `Fx55`, and whatever happens to the registers, `Fx65` with
the same `x`, `I` and memory restores `V0` to `Vx`. -/
def Obligations.StoreThenLoadRestores : Prop :=
  ∀ (x : Nibble) (s t u : State), Memory.wf s.font s.mem = true → s.index.toNat + x.toNat ≤ 0xFFF →
    exec (.ldMemVx x) s = .next t → SameMemory t u → u.index = t.index →
    ∃ v, exec (.ldVxMem x) u = .next v ∧ ∀ r : Nibble, r.toNat ≤ x.toNat → v.reg r = s.reg r
end

