-- ==== Sys2Proof/Laws/Decode.lean ====
section
/-! SUPPORT. The fields of a word in each of the formats of R62, and a word put together again from its fields. -/

namespace Sys2Proof

/-- A bit of a word in format `XYN`. -/
theorem getLsbD_wordXYN (f x y n : Nibble) (i : Nat) : (wordXYN f x y n).getLsbD i =
    if i < 4 then n.getLsbD i else if i - 4 < 4 then y.getLsbD (i - 4)
    else if i - 4 - 4 < 4 then x.getLsbD (i - 4 - 4) else f.getLsbD (i - 4 - 4 - 4) := by
  change BitVec.getLsbD (w := 4 + 4 + 4 + 4) (f ++ x ++ y ++ n) i = _
  simp only [BitVec.getLsbD_append]

/-- A bit of a word in format `XK`. -/
theorem getLsbD_wordXK (f x : Nibble) (k : Byte) (i : Nat) : (wordXK f x k).getLsbD i =
    if i < 8 then k.getLsbD i else if i - 8 < 4 then x.getLsbD (i - 8) else f.getLsbD (i - 8 - 4) := by
  change BitVec.getLsbD (w := 4 + 4 + 8) (f ++ x ++ k) i = _
  simp only [BitVec.getLsbD_append]

/-- A bit of a word in format `A`. -/
theorem getLsbD_wordA (f : Nibble) (a : Addr) (i : Nat) : (wordA f a).getLsbD i =
    if i < 12 then a.getLsbD i else f.getLsbD (i - 12) := by
  change BitVec.getLsbD (w := 4 + 12) (f ++ a) i = _
  simp only [BitVec.getLsbD_append]

/-- A slice of a word equals a field when their bits agree. -/
theorem slice_eq {k : Nat} {w : Word} {lo : Nat} {v : BitVec k} (h : ∀ i < k, w.getLsbD (lo + i) = v.getLsbD i) :
    w.extractLsb' lo k = v := by
  apply BitVec.eq_of_getLsbD_eq
  intro i hi
  simp [hi, h i hi]

@[simp] theorem opFamily_wordXYN (f x y n : Nibble) : opFamily (wordXYN f x y n) = f := by
  refine slice_eq fun i hi => ?_
  rw [getLsbD_wordXYN, if_neg (by omega), if_neg (by omega), if_neg (by omega)]
  congr 1; omega

@[simp] theorem fieldX_wordXYN (f x y n : Nibble) : fieldX (wordXYN f x y n) = x := by
  refine slice_eq fun i hi => ?_
  rw [getLsbD_wordXYN, if_neg (by omega), if_neg (by omega), if_pos (by omega)]
  congr 1; omega

@[simp] theorem fieldY_wordXYN (f x y n : Nibble) : fieldY (wordXYN f x y n) = y := by
  refine slice_eq fun i hi => ?_
  rw [getLsbD_wordXYN, if_neg (by omega), if_pos (by omega)]
  congr 1; omega

@[simp] theorem fieldN_wordXYN (f x y n : Nibble) : fieldN (wordXYN f x y n) = n := by
  refine slice_eq fun i hi => ?_
  rw [getLsbD_wordXYN, if_pos (by omega), Nat.zero_add]

@[simp] theorem opFamily_wordXK (f x : Nibble) (k : Byte) : opFamily (wordXK f x k) = f := by
  refine slice_eq fun i hi => ?_
  rw [getLsbD_wordXK, if_neg (by omega), if_neg (by omega)]
  congr 1; omega

@[simp] theorem fieldX_wordXK (f x : Nibble) (k : Byte) : fieldX (wordXK f x k) = x := by
  refine slice_eq fun i hi => ?_
  rw [getLsbD_wordXK, if_neg (by omega), if_pos (by omega)]
  congr 1; omega

@[simp] theorem fieldKk_wordXK (f x : Nibble) (k : Byte) : fieldKk (wordXK f x k) = k := by
  refine slice_eq fun i hi => ?_
  rw [getLsbD_wordXK, if_pos (by omega), Nat.zero_add]

@[simp] theorem opFamily_wordA (f : Nibble) (a : Addr) : opFamily (wordA f a) = f := by
  refine slice_eq fun i hi => ?_
  rw [getLsbD_wordA, if_neg (by omega)]
  congr 1; omega

@[simp] theorem fieldNnn_wordA (f : Nibble) (a : Addr) : fieldNnn (wordA f a) = a := by
  refine slice_eq fun i hi => ?_
  rw [getLsbD_wordA, if_pos (by omega), Nat.zero_add]

/-- A word is its family, `x`, `y` and `n` in format `XYN`. -/
theorem wordXYN_fields (w : Word) : wordXYN (opFamily w) (fieldX w) (fieldY w) (fieldN w) = w := by
  apply BitVec.eq_of_getLsbD_eq
  intro i hi
  rw [getLsbD_wordXYN]
  simp only [opFamily, fieldX, fieldY, fieldN, BitVec.getLsbD_extractLsb']
  split_ifs with h1 h2 h3
  · simp [h1]
  · simp only [h2, decide_true, Bool.true_and]; congr 1; omega
  · simp only [h3, decide_true, Bool.true_and]; congr 1; omega
  · simp only [show i - 4 - 4 - 4 < 4 by omega, decide_true, Bool.true_and]; congr 1; omega

/-- A word is its family, `x` and `kk` in format `XK`. -/
theorem wordXK_fields (w : Word) : wordXK (opFamily w) (fieldX w) (fieldKk w) = w := by
  apply BitVec.eq_of_getLsbD_eq
  intro i hi
  rw [getLsbD_wordXK]
  simp only [opFamily, fieldX, fieldKk, BitVec.getLsbD_extractLsb']
  split_ifs with h1 h2
  · simp [h1]
  · simp only [h2, decide_true, Bool.true_and]; congr 1; omega
  · simp only [show i - 8 - 4 < 4 by omega, decide_true, Bool.true_and]; congr 1; omega

/-- A word is its family and `nnn` in format `A`. -/
theorem wordA_fields (w : Word) : wordA (opFamily w) (fieldNnn w) = w := by
  apply BitVec.eq_of_getLsbD_eq
  intro i hi
  rw [getLsbD_wordA]
  simp only [opFamily, fieldNnn, BitVec.getLsbD_extractLsb']
  split_ifs with h1
  · simp [h1]
  · simp only [show i - 12 < 4 by omega, decide_true, Bool.true_and]; congr 1; omega

/-- A word is its two bytes, high byte first. -/
theorem joinBytes_bytes (w : Word) : joinBytes (highByte w) (lowByte w) = w := by
  apply BitVec.eq_of_getLsbD_eq
  intro i hi
  change BitVec.getLsbD (w := 8 + 8) (highByte w ++ lowByte w) i = _
  simp only [BitVec.getLsbD_append, highByte, lowByte, BitVec.getLsbD_extractLsb']
  split_ifs with h1
  · simp [h1]
  · simp only [show i - 8 < 8 by omega, decide_true, Bool.true_and]; congr 1; omega

/-- Decoding two bytes is decoding their word. -/
theorem decode_pair (hi lo : Byte) (rest : List Byte) :
    decode (hi :: lo :: rest) = (decodeWord (joinBytes hi lo)).map fun i => (i, rest) := rfl

end Sys2Proof
end

