-- ==== Sys2Proof/Laws/Framebuffer.lean ====
section
/-! SUPPORT. The laws of the framebuffer: one toggled pixel, a cleared screen, and one sprite row. -/

namespace Sys2Proof.Machine

/-- A pixel after one is toggled. -/
theorem pixel_toggle (fb : Framebuffer) (px qx : Fin 64) (py qy : Fin 32) :
    (fb.toggle px py).pixel qx qy = (fb.pixel qx qy ^^ decide (px = qx ∧ py = qy)) := by
  unfold Framebuffer.pixel Framebuffer.toggle
  rw [Vector.getElem_set]
  by_cases hy : py = qy
  · subst hy
    by_cases hx : px = qx
    · subst hx
      simp
    · have : ¬ qx.val = px.val := fun h => hx (Fin.ext h.symm)
      simp [hx, this]
  · have : ¬ py.val = qy.val := fun h => hy (Fin.ext h)
    simp [hy, this]

/-- Every pixel of a cleared screen is 0. -/
theorem pixel_clear (px : Fin 64) (py : Fin 32) : Framebuffer.clear.pixel px py = false := by
  simp [Framebuffer.pixel, Framebuffer.clear]

/-- Framebuffers with equal pixels are equal. -/
theorem fb_ext {f g : Framebuffer} (h : ∀ px py, f.pixel px py = g.pixel px py) : f = g := by
  apply Vector.ext
  intro y hy
  apply BitVec.eq_of_getLsbD_eq
  intro x hx
  exact h ⟨x, hx⟩ ⟨y, hy⟩

/-- The columns a sprite row toggles are distinct: 8 columns on a screen of 64. -/
theorem rowTargets_nodup (x0 row : Byte) : (rowTargets x0 row).Nodup := by
  refine List.Nodup.map_on ?_ (List.Nodup.filter _ List.nodup_range)
  intro a ha b hb hab
  simp only [List.mem_filter, List.mem_range] at ha hb
  have := congrArg Fin.val hab
  simp only [screenColumn] at this
  omega

/-- Which columns a sprite row toggles. -/
theorem mem_rowTargets (x0 row : Byte) (px : Fin 64) :
    px ∈ rowTargets x0 row ↔ ∃ c < 8, spriteBit row c = true ∧ px = screenColumn x0 c := by
  simp only [rowTargets, List.mem_map, List.mem_filter, List.mem_range]
  constructor
  · rintro ⟨c, ⟨hc, hb⟩, rfl⟩; exact ⟨c, hc, hb, rfl⟩
  · rintro ⟨c, hc, hb, rfl⟩; exact ⟨c, ⟨hc, hb⟩, rfl⟩

/-- One sprite row: its target pixels toggle, the others stay, and `hit` records whether a target was set. -/
theorem foldl_drawPixel (py : Fin 32) : ∀ (l : List (Fin 64)), l.Nodup → ∀ acc : Framebuffer × Bool,
    (∀ qx qy, (l.foldl (drawPixel py) acc).1.pixel qx qy = (acc.1.pixel qx qy ^^ decide (qx ∈ l ∧ py = qy))) ∧
    (l.foldl (drawPixel py) acc).2 = (acc.2 || l.any fun px => acc.1.pixel px py)
  | [], _, acc => by simp
  | px :: l, hl, acc => by
    obtain ⟨hnot, hl⟩ := List.nodup_cons.1 hl
    obtain ⟨h1, h2⟩ := foldl_drawPixel py l hl (drawPixel py acc px)
    constructor
    · intro qx qy
      rw [List.foldl_cons, h1]
      simp only [drawPixel, pixel_toggle, Bool.xor_assoc]
      congr 1
      by_cases hq : px = qx
      · subst hq
        simp [hnot]
      · have hq' : ¬ qx = px := fun h => hq h.symm
        simp [hq, hq']
    · rw [List.foldl_cons, h2, List.any_cons]
      simp only [drawPixel, Bool.or_assoc]
      congr 2
      rw [Bool.eq_iff_iff, List.any_eq_true, List.any_eq_true]
      refine exists_congr fun qx => and_congr_right fun hqx => ?_
      rw [pixel_toggle]
      have : px ≠ qx := fun h => hnot (h ▸ hqx)
      simp [this]

end Sys2Proof.Machine
end

