-- ==== Sys2Proof/Laws/Memory.lean ====
section
/-! SUPPORT. The laws of memory: read after write, every operation keeps the canonical form, and canonical memories that
read alike are equal. -/

namespace Sys2Proof.Machine

variable {f : Font}

/-- An entry put in front is what its address reads as. -/
theorem read_put (m : Memory) (a b : Nat) (c : Byte) (h : m.read f a = Memory.initial f a) :
    (Memory.put f a c m).read f b = if a = b then c else m.read f b := by
  unfold Memory.put
  split_ifs with h1 h2 h2
  · rw [← h2, h, h1]
  · rfl
  · simp [Memory.read, h2]
  · simp [Memory.read, h2]

/-- Addresses below the first entry of a canonical memory are unlisted. -/
theorem read_of_lt : ∀ (m : Memory) (lo a : Nat), Memory.wfFrom f lo m = true → a < lo → m.read f a = Memory.initial f a
  | [], _, _, _, _ => rfl
  | c :: m, lo, a, h, ha => by
    simp only [Memory.wfFrom, Bool.and_eq_true, decide_eq_true_eq] at h
    obtain ⟨⟨⟨h1, -⟩, -⟩, h2⟩ := h
    rw [Memory.read, if_neg (by omega), read_of_lt m _ a h2 (by omega)]

/-- A canonical form from a higher address is one from a lower address. -/
theorem wfFrom_mono {m : Memory} {lo lo' : Nat} (h : Memory.wfFrom f lo m = true) (hl : lo' ≤ lo) :
    Memory.wfFrom f lo' m = true := by
  cases m with
  | nil => rfl
  | cons c m =>
    simp only [Memory.wfFrom, Bool.and_eq_true, decide_eq_true_eq] at h ⊢
    exact ⟨⟨⟨by omega, h.1.1.2⟩, h.1.2⟩, h.2⟩

/-- Putting an entry in front keeps the canonical form. -/
theorem wfFrom_put {m : Memory} {lo a : Nat} {b : Byte} (h : Memory.wfFrom f (a + 1) m = true) (hl : lo ≤ a)
    (ha : a < Config.memSize) : Memory.wfFrom f lo (Memory.put f a b m) = true := by
  unfold Memory.put
  split_ifs with hb
  · exact wfFrom_mono h (by omega)
  · simp only [Memory.wfFrom, Bool.and_eq_true, decide_eq_true_eq]
    exact ⟨⟨⟨hl, ha⟩, hb⟩, h⟩

/-- A write keeps the canonical form. -/
theorem wfFrom_write : ∀ (m : Memory) (lo a : Nat) (b : Byte), Memory.wfFrom f lo m = true → lo ≤ a →
    a < Config.memSize → Memory.wfFrom f lo (m.write f a b) = true
  | [], _, _, _, _, hl, ha => wfFrom_put rfl hl ha
  | c :: m, lo, a, b, h, hl, ha => by
    have h' := h
    simp only [Memory.wfFrom, Bool.and_eq_true, decide_eq_true_eq] at h
    obtain ⟨⟨⟨h1, h2⟩, h3⟩, h4⟩ := h
    rw [Memory.write]
    split_ifs with hlt heq
    · exact wfFrom_put (by
        simp only [Memory.wfFrom, Bool.and_eq_true, decide_eq_true_eq]
        exact ⟨⟨⟨by omega, h2⟩, h3⟩, h4⟩) hl ha
    · exact wfFrom_put (heq ▸ h4) hl ha
    · simp only [Memory.wfFrom, Bool.and_eq_true, decide_eq_true_eq]
      exact ⟨⟨⟨h1, h2⟩, h3⟩, wfFrom_write m _ a b h4 (by omega) ha⟩

/-- Read after write, in a canonical memory: the byte written at its address, every other byte as before. -/
theorem read_writeFrom : ∀ (m : Memory) (lo a : Nat) (c : Byte) (b : Nat), Memory.wfFrom f lo m = true →
    (m.write f a c).read f b = if a = b then c else m.read f b
  | [], _, a, c, b, _ => read_put [] a b c rfl
  | e :: m, lo, a, c, b, h => by
    have h' := h
    simp only [Memory.wfFrom, Bool.and_eq_true, decide_eq_true_eq] at h
    obtain ⟨⟨⟨h1, h2⟩, h3⟩, h4⟩ := h
    rw [Memory.write]
    by_cases hlt : a < e.1
    · rw [if_pos hlt]
      refine read_put _ _ _ _ ?_
      rw [Memory.read, if_neg (by omega)]
      exact read_of_lt m _ a h4 (by omega)
    rw [if_neg hlt]
    by_cases hae : a = e.1
    · rw [if_pos hae, read_put _ _ _ _ (read_of_lt m _ a h4 (by omega))]
      by_cases hab : a = b
      · rw [if_pos hab, if_pos hab]
      · rw [if_neg hab, if_neg hab, Memory.read, if_neg (by omega)]
    rw [if_neg hae, Memory.read, Memory.read, read_writeFrom m _ a c b h4]
    by_cases hab : a = b
    · rw [if_pos hab, if_neg (by omega), if_pos hab]
    · rw [if_neg hab, if_neg hab]

/-- Read after write. -/
theorem read_write {m : Memory} (h : m.wf f = true) (a : Nat) (c : Byte) (b : Nat) :
    (m.write f a c).read f b = if a = b then c else m.read f b := read_writeFrom m 0 a c b h

/-- A write inside the memory keeps the canonical form. -/
theorem wf_write {m : Memory} (h : m.wf f = true) {a : Nat} (ha : a < Config.memSize) (c : Byte) :
    (m.write f a c).wf f = true := wfFrom_write m 0 a c h (Nat.zero_le _) ha

/-- Writing bytes inside the memory keeps the canonical form. -/
theorem wf_writeBytes : ∀ (bs : List Byte) {m : Memory}, m.wf f = true → ∀ {a : Nat},
    a + bs.length ≤ Config.memSize → (m.writeBytes f a bs).wf f = true
  | [], _, h, _, _ => h
  | _ :: bs, _, h, a, ha => by
    rw [List.length_cons] at ha
    exact wf_writeBytes bs (wf_write h (by omega) _) (by omega)

/-- What an address reads as after bytes are written: its byte of the block, or what it read as before. -/
theorem read_writeBytes : ∀ (bs : List Byte) {m : Memory}, m.wf f = true → ∀ {a : Nat},
    a + bs.length ≤ Config.memSize → ∀ b, (m.writeBytes f a bs).read f b =
      if a ≤ b then (bs[b - a]?).getD (m.read f b) else m.read f b
  | [], _, _, a, _, b => by simp [Memory.writeBytes]
  | c :: bs, m, h, a, ha, b => by
    rw [List.length_cons] at ha
    rw [Memory.writeBytes, read_writeBytes bs (wf_write h (by omega) _) (by omega), read_write h]
    rcases Nat.lt_trichotomy b a with hb | hb | hb
    · rw [if_neg (by omega), if_neg (by omega), if_neg (by omega)]
    · subst hb
      rw [if_neg (by omega), if_pos rfl, if_pos (le_refl _), Nat.sub_self]
      rfl
    · rw [if_pos (by omega), if_neg (by omega), if_pos (by omega), show b - a = (b - (a + 1)) + 1 by omega]
      rfl

/-- The memory of the reset state is in canonical form. -/
theorem reset_mem_wf : Memory.wf f State.reset.mem = true := rfl

/-- What a bounds-checked load answers. -/
theorem load_eq_some {m : Memory} {a n : Nat} {bs : List Byte} :
    m.load f a n = some bs ↔ Memory.inRange a n = true ∧ bs = (List.range n).map fun j => m.read f (a + j) := by
  unfold Memory.load
  split_ifs with h
  · simp only [Option.some.injEq, h, true_and]; exact eq_comm
  · simp [h]

/-- When a bounds-checked load answers nothing. -/
theorem load_eq_none {m : Memory} {a n : Nat} : m.load f a n = none ↔ Memory.inRange a n = false := by
  unfold Memory.load
  split_ifs with h <;> simp [h]

/-- What a bounds-checked store answers. -/
theorem store_eq_some {m m' : Memory} {a : Nat} {bs : List Byte} :
    m.store f a bs = some m' ↔ Memory.inRange a bs.length = true ∧ m' = m.writeBytes f a bs := by
  unfold Memory.store
  split_ifs with h
  · simp only [Option.some.injEq, h, true_and]; exact eq_comm
  · simp [h]

/-- When a bounds-checked store answers nothing. -/
theorem store_eq_none {m : Memory} {a : Nat} {bs : List Byte} :
    m.store f a bs = none ↔ Memory.inRange a bs.length = false := by
  unfold Memory.store
  split_ifs with h <;> simp [h]

/-- The range check in numbers. -/
theorem inRange_iff {a n : Nat} : Memory.inRange a n = true ↔ n = 0 ∨ a + n ≤ Config.memSize := by
  simp [Memory.inRange]

/-- A bounds-checked store keeps the canonical form. -/
theorem wf_store {m m' : Memory} (h : m.wf f = true) {a : Nat} {bs : List Byte} (hs : m.store f a bs = some m') :
    m'.wf f = true := by
  obtain ⟨hr, rfl⟩ := store_eq_some.1 hs
  rcases inRange_iff.1 hr with h0 | h1
  · rw [List.length_eq_zero_iff.1 h0]; exact h
  · exact wf_writeBytes bs h h1

/-- What an address reads as after a bounds-checked store. -/
theorem read_store {m m' : Memory} (h : m.wf f = true) {a : Nat} {bs : List Byte} (hs : m.store f a bs = some m')
    (b : Nat) : m'.read f b = if a ≤ b then (bs[b - a]?).getD (m.read f b) else m.read f b := by
  obtain ⟨hr, rfl⟩ := store_eq_some.1 hs
  rcases inRange_iff.1 hr with h0 | h1
  · rw [List.length_eq_zero_iff.1 h0]; simp [Memory.writeBytes]
  · exact read_writeBytes bs h h1 b

/-- Canonical memories that read alike from `lo` on are equal. -/
theorem mem_extFrom : ∀ (m n : Memory) (lo : Nat), Memory.wfFrom f lo m = true → Memory.wfFrom f lo n = true →
    (∀ a, m.read f a = n.read f a) → m = n
  | [], [], _, _, _, _ => rfl
  | [], e :: n, lo, _, hn, h => by
    simp only [Memory.wfFrom, Bool.and_eq_true, decide_eq_true_eq] at hn
    exact absurd (by simpa [Memory.read] using (h e.1).symm) hn.1.2
  | e :: m, [], lo, hm, _, h => by
    simp only [Memory.wfFrom, Bool.and_eq_true, decide_eq_true_eq] at hm
    exact absurd (by simpa [Memory.read] using h e.1) hm.1.2
  | e :: m, f :: n, lo, hm, hn, h => by
    simp only [Memory.wfFrom, Bool.and_eq_true, decide_eq_true_eq] at hm hn
    obtain ⟨⟨⟨-, -⟩, hme⟩, hm⟩ := hm
    obtain ⟨⟨⟨-, -⟩, hnf⟩, hn⟩ := hn
    have hef : e.1 = f.1 := by
      by_contra hne
      rcases Nat.lt_or_gt_of_ne hne with hlt | hlt
      · have := h e.1
        rw [Memory.read, if_pos rfl, Memory.read, if_neg (by omega), read_of_lt n _ _ hn (by omega)] at this
        exact hme this
      · have := h f.1
        rw [Memory.read, if_neg (by omega), read_of_lt m _ _ hm (by omega), Memory.read, if_pos rfl] at this
        exact hnf this.symm
    have hb : e.2 = f.2 := by simpa [Memory.read, hef] using h e.1
    have htail : m = n := by
      refine mem_extFrom m n (e.1 + 1) hm (hef ▸ hn) fun a => ?_
      by_cases ha : a < e.1 + 1
      · rw [read_of_lt m _ _ hm ha, read_of_lt n _ _ hn (by omega)]
      · have := h a
        rwa [Memory.read, if_neg (by omega), Memory.read, if_neg (by omega)] at this
    rw [htail, show e = f from Prod.ext hef hb]

/-- Canonical memories that read alike are equal. -/
theorem mem_ext {m n : Memory} (hm : m.wf f = true) (hn : n.wf f = true) (h : ∀ a, m.read f a = n.read f a) : m = n :=
  mem_extFrom m n 0 hm hn h

end Sys2Proof.Machine
end

