-- ==== Sys2Proof/Laws/State.lean ====
section
/-! SUPPORT. One lemma per field of State per named update, and how a register reads after each: true by rfl, for simp. -/

namespace Sys2Proof.Machine

@[simp] theorem setReg_v (s : State) (x : Nibble) (b : Byte) : (s.setReg x b).v = s.v.set x.toNat b x.isLt := rfl
@[simp] theorem setReg_index (s : State) (x : Nibble) (b : Byte) : (s.setReg x b).index = s.index := rfl
@[simp] theorem setReg_pc (s : State) (x : Nibble) (b : Byte) : (s.setReg x b).pc = s.pc := rfl
@[simp] theorem setReg_sp (s : State) (x : Nibble) (b : Byte) : (s.setReg x b).sp = s.sp := rfl
@[simp] theorem setReg_stack (s : State) (x : Nibble) (b : Byte) : (s.setReg x b).stack = s.stack := rfl
@[simp] theorem setReg_delayTimer (s : State) (x : Nibble) (b : Byte) : (s.setReg x b).delayTimer = s.delayTimer := rfl
@[simp] theorem setReg_soundTimer (s : State) (x : Nibble) (b : Byte) : (s.setReg x b).soundTimer = s.soundTimer := rfl
@[simp] theorem setReg_mem (s : State) (x : Nibble) (b : Byte) : (s.setReg x b).mem = s.mem := rfl
@[simp] theorem setReg_fb (s : State) (x : Nibble) (b : Byte) : (s.setReg x b).fb = s.fb := rfl
@[simp] theorem setReg_dirty (s : State) (x : Nibble) (b : Byte) : (s.setReg x b).dirty = s.dirty := rfl
@[simp] theorem setReg_halted (s : State) (x : Nibble) (b : Byte) : (s.setReg x b).halted = s.halted := rfl
@[simp] theorem setReg_faultCause (s : State) (x : Nibble) (b : Byte) : (s.setReg x b).faultCause = s.faultCause := rfl
@[simp] theorem setReg_faultPc (s : State) (x : Nibble) (b : Byte) : (s.setReg x b).faultPc = s.faultPc := rfl
@[simp] theorem setReg_faultWord (s : State) (x : Nibble) (b : Byte) : (s.setReg x b).faultWord = s.faultWord := rfl
@[simp] theorem setReg_font (s : State) (x : Nibble) (b : Byte) : (s.setReg x b).font = s.font := rfl
@[simp] theorem setReg_byteAt (s : State) (x : Nibble) (b : Byte) (a : Nat) : (s.setReg x b).byteAt a = s.byteAt a := rfl
@[simp] theorem setReg_host (s : State) (x : Nibble) (b : Byte) : (s.setReg x b).host = s.host := rfl

@[simp] theorem setFlag_index (s : State) (c : Bool) : (s.setFlag c).index = s.index := rfl
@[simp] theorem setFlag_pc (s : State) (c : Bool) : (s.setFlag c).pc = s.pc := rfl
@[simp] theorem setFlag_sp (s : State) (c : Bool) : (s.setFlag c).sp = s.sp := rfl
@[simp] theorem setFlag_stack (s : State) (c : Bool) : (s.setFlag c).stack = s.stack := rfl
@[simp] theorem setFlag_delayTimer (s : State) (c : Bool) : (s.setFlag c).delayTimer = s.delayTimer := rfl
@[simp] theorem setFlag_soundTimer (s : State) (c : Bool) : (s.setFlag c).soundTimer = s.soundTimer := rfl
@[simp] theorem setFlag_mem (s : State) (c : Bool) : (s.setFlag c).mem = s.mem := rfl
@[simp] theorem setFlag_fb (s : State) (c : Bool) : (s.setFlag c).fb = s.fb := rfl
@[simp] theorem setFlag_dirty (s : State) (c : Bool) : (s.setFlag c).dirty = s.dirty := rfl
@[simp] theorem setFlag_halted (s : State) (c : Bool) : (s.setFlag c).halted = s.halted := rfl
@[simp] theorem setFlag_faultCause (s : State) (c : Bool) : (s.setFlag c).faultCause = s.faultCause := rfl
@[simp] theorem setFlag_faultPc (s : State) (c : Bool) : (s.setFlag c).faultPc = s.faultPc := rfl
@[simp] theorem setFlag_faultWord (s : State) (c : Bool) : (s.setFlag c).faultWord = s.faultWord := rfl
@[simp] theorem setFlag_font (s : State) (c : Bool) : (s.setFlag c).font = s.font := rfl
@[simp] theorem setFlag_byteAt (s : State) (c : Bool) (a : Nat) : (s.setFlag c).byteAt a = s.byteAt a := rfl
@[simp] theorem setFlag_host (s : State) (c : Bool) : (s.setFlag c).host = s.host := rfl

@[simp] theorem setRegs_index (s : State) (bs : List Byte) : (s.setRegs bs).index = s.index := rfl
@[simp] theorem setRegs_pc (s : State) (bs : List Byte) : (s.setRegs bs).pc = s.pc := rfl
@[simp] theorem setRegs_sp (s : State) (bs : List Byte) : (s.setRegs bs).sp = s.sp := rfl
@[simp] theorem setRegs_stack (s : State) (bs : List Byte) : (s.setRegs bs).stack = s.stack := rfl
@[simp] theorem setRegs_delayTimer (s : State) (bs : List Byte) : (s.setRegs bs).delayTimer = s.delayTimer := rfl
@[simp] theorem setRegs_soundTimer (s : State) (bs : List Byte) : (s.setRegs bs).soundTimer = s.soundTimer := rfl
@[simp] theorem setRegs_mem (s : State) (bs : List Byte) : (s.setRegs bs).mem = s.mem := rfl
@[simp] theorem setRegs_fb (s : State) (bs : List Byte) : (s.setRegs bs).fb = s.fb := rfl
@[simp] theorem setRegs_dirty (s : State) (bs : List Byte) : (s.setRegs bs).dirty = s.dirty := rfl
@[simp] theorem setRegs_halted (s : State) (bs : List Byte) : (s.setRegs bs).halted = s.halted := rfl
@[simp] theorem setRegs_faultCause (s : State) (bs : List Byte) : (s.setRegs bs).faultCause = s.faultCause := rfl
@[simp] theorem setRegs_faultPc (s : State) (bs : List Byte) : (s.setRegs bs).faultPc = s.faultPc := rfl
@[simp] theorem setRegs_faultWord (s : State) (bs : List Byte) : (s.setRegs bs).faultWord = s.faultWord := rfl
@[simp] theorem setRegs_font (s : State) (bs : List Byte) : (s.setRegs bs).font = s.font := rfl
@[simp] theorem setRegs_byteAt (s : State) (bs : List Byte) (a : Nat) : (s.setRegs bs).byteAt a = s.byteAt a := rfl
@[simp] theorem setRegs_host (s : State) (bs : List Byte) : (s.setRegs bs).host = s.host := rfl

@[simp] theorem setIndex_v (s : State) (w : Word) : (s.setIndex w).v = s.v := rfl
@[simp] theorem setIndex_index (s : State) (w : Word) : (s.setIndex w).index = w := rfl
@[simp] theorem setIndex_pc (s : State) (w : Word) : (s.setIndex w).pc = s.pc := rfl
@[simp] theorem setIndex_sp (s : State) (w : Word) : (s.setIndex w).sp = s.sp := rfl
@[simp] theorem setIndex_stack (s : State) (w : Word) : (s.setIndex w).stack = s.stack := rfl
@[simp] theorem setIndex_delayTimer (s : State) (w : Word) : (s.setIndex w).delayTimer = s.delayTimer := rfl
@[simp] theorem setIndex_soundTimer (s : State) (w : Word) : (s.setIndex w).soundTimer = s.soundTimer := rfl
@[simp] theorem setIndex_mem (s : State) (w : Word) : (s.setIndex w).mem = s.mem := rfl
@[simp] theorem setIndex_fb (s : State) (w : Word) : (s.setIndex w).fb = s.fb := rfl
@[simp] theorem setIndex_dirty (s : State) (w : Word) : (s.setIndex w).dirty = s.dirty := rfl
@[simp] theorem setIndex_halted (s : State) (w : Word) : (s.setIndex w).halted = s.halted := rfl
@[simp] theorem setIndex_faultCause (s : State) (w : Word) : (s.setIndex w).faultCause = s.faultCause := rfl
@[simp] theorem setIndex_faultPc (s : State) (w : Word) : (s.setIndex w).faultPc = s.faultPc := rfl
@[simp] theorem setIndex_faultWord (s : State) (w : Word) : (s.setIndex w).faultWord = s.faultWord := rfl
@[simp] theorem setIndex_font (s : State) (w : Word) : (s.setIndex w).font = s.font := rfl
@[simp] theorem setIndex_host (s : State) (w : Word) : (s.setIndex w).host = s.host := rfl
@[simp] theorem setIndex_reg (s : State) (w : Word) (y : Nibble) : (s.setIndex w).reg y = s.reg y := rfl
@[simp] theorem setIndex_byteAt (s : State) (w : Word) (a : Nat) : (s.setIndex w).byteAt a = s.byteAt a := rfl

@[simp] theorem setPc_v (s : State) (w : Word) : (s.setPc w).v = s.v := rfl
@[simp] theorem setPc_index (s : State) (w : Word) : (s.setPc w).index = s.index := rfl
@[simp] theorem setPc_pc (s : State) (w : Word) : (s.setPc w).pc = w := rfl
@[simp] theorem setPc_sp (s : State) (w : Word) : (s.setPc w).sp = s.sp := rfl
@[simp] theorem setPc_stack (s : State) (w : Word) : (s.setPc w).stack = s.stack := rfl
@[simp] theorem setPc_delayTimer (s : State) (w : Word) : (s.setPc w).delayTimer = s.delayTimer := rfl
@[simp] theorem setPc_soundTimer (s : State) (w : Word) : (s.setPc w).soundTimer = s.soundTimer := rfl
@[simp] theorem setPc_mem (s : State) (w : Word) : (s.setPc w).mem = s.mem := rfl
@[simp] theorem setPc_fb (s : State) (w : Word) : (s.setPc w).fb = s.fb := rfl
@[simp] theorem setPc_dirty (s : State) (w : Word) : (s.setPc w).dirty = s.dirty := rfl
@[simp] theorem setPc_halted (s : State) (w : Word) : (s.setPc w).halted = s.halted := rfl
@[simp] theorem setPc_faultCause (s : State) (w : Word) : (s.setPc w).faultCause = s.faultCause := rfl
@[simp] theorem setPc_faultPc (s : State) (w : Word) : (s.setPc w).faultPc = s.faultPc := rfl
@[simp] theorem setPc_faultWord (s : State) (w : Word) : (s.setPc w).faultWord = s.faultWord := rfl
@[simp] theorem setPc_font (s : State) (w : Word) : (s.setPc w).font = s.font := rfl
@[simp] theorem setPc_host (s : State) (w : Word) : (s.setPc w).host = s.host := rfl
@[simp] theorem setPc_reg (s : State) (w : Word) (y : Nibble) : (s.setPc w).reg y = s.reg y := rfl
@[simp] theorem setPc_byteAt (s : State) (w : Word) (a : Nat) : (s.setPc w).byteAt a = s.byteAt a := rfl

@[simp] theorem advance_v (s : State) : (s.advance).v = s.v := rfl
@[simp] theorem advance_index (s : State) : (s.advance).index = s.index := rfl
@[simp] theorem advance_pc (s : State) : (s.advance).pc = s.pc + 2 := rfl
@[simp] theorem advance_sp (s : State) : (s.advance).sp = s.sp := rfl
@[simp] theorem advance_stack (s : State) : (s.advance).stack = s.stack := rfl
@[simp] theorem advance_delayTimer (s : State) : (s.advance).delayTimer = s.delayTimer := rfl
@[simp] theorem advance_soundTimer (s : State) : (s.advance).soundTimer = s.soundTimer := rfl
@[simp] theorem advance_mem (s : State) : (s.advance).mem = s.mem := rfl
@[simp] theorem advance_fb (s : State) : (s.advance).fb = s.fb := rfl
@[simp] theorem advance_dirty (s : State) : (s.advance).dirty = s.dirty := rfl
@[simp] theorem advance_halted (s : State) : (s.advance).halted = s.halted := rfl
@[simp] theorem advance_faultCause (s : State) : (s.advance).faultCause = s.faultCause := rfl
@[simp] theorem advance_faultPc (s : State) : (s.advance).faultPc = s.faultPc := rfl
@[simp] theorem advance_faultWord (s : State) : (s.advance).faultWord = s.faultWord := rfl
@[simp] theorem advance_font (s : State) : (s.advance).font = s.font := rfl
@[simp] theorem advance_host (s : State) : (s.advance).host = s.host := rfl
@[simp] theorem advance_reg (s : State) (y : Nibble) : (s.advance).reg y = s.reg y := rfl
@[simp] theorem advance_byteAt (s : State) (a : Nat) : (s.advance).byteAt a = s.byteAt a := rfl

@[simp] theorem skipIf_v (s : State) (c : Bool) : (s.skipIf c).v = s.v := rfl
@[simp] theorem skipIf_index (s : State) (c : Bool) : (s.skipIf c).index = s.index := rfl
@[simp] theorem skipIf_pc (s : State) (c : Bool) : (s.skipIf c).pc = if c then s.pc + 4 else s.pc + 2 := rfl
@[simp] theorem skipIf_sp (s : State) (c : Bool) : (s.skipIf c).sp = s.sp := rfl
@[simp] theorem skipIf_stack (s : State) (c : Bool) : (s.skipIf c).stack = s.stack := rfl
@[simp] theorem skipIf_delayTimer (s : State) (c : Bool) : (s.skipIf c).delayTimer = s.delayTimer := rfl
@[simp] theorem skipIf_soundTimer (s : State) (c : Bool) : (s.skipIf c).soundTimer = s.soundTimer := rfl
@[simp] theorem skipIf_mem (s : State) (c : Bool) : (s.skipIf c).mem = s.mem := rfl
@[simp] theorem skipIf_fb (s : State) (c : Bool) : (s.skipIf c).fb = s.fb := rfl
@[simp] theorem skipIf_dirty (s : State) (c : Bool) : (s.skipIf c).dirty = s.dirty := rfl
@[simp] theorem skipIf_halted (s : State) (c : Bool) : (s.skipIf c).halted = s.halted := rfl
@[simp] theorem skipIf_faultCause (s : State) (c : Bool) : (s.skipIf c).faultCause = s.faultCause := rfl
@[simp] theorem skipIf_faultPc (s : State) (c : Bool) : (s.skipIf c).faultPc = s.faultPc := rfl
@[simp] theorem skipIf_faultWord (s : State) (c : Bool) : (s.skipIf c).faultWord = s.faultWord := rfl
@[simp] theorem skipIf_font (s : State) (c : Bool) : (s.skipIf c).font = s.font := rfl
@[simp] theorem skipIf_host (s : State) (c : Bool) : (s.skipIf c).host = s.host := rfl
@[simp] theorem skipIf_reg (s : State) (c : Bool) (y : Nibble) : (s.skipIf c).reg y = s.reg y := rfl
@[simp] theorem skipIf_byteAt (s : State) (c : Bool) (a : Nat) : (s.skipIf c).byteAt a = s.byteAt a := rfl

@[simp] theorem setDelay_v (s : State) (b : Byte) : (s.setDelay b).v = s.v := rfl
@[simp] theorem setDelay_index (s : State) (b : Byte) : (s.setDelay b).index = s.index := rfl
@[simp] theorem setDelay_pc (s : State) (b : Byte) : (s.setDelay b).pc = s.pc := rfl
@[simp] theorem setDelay_sp (s : State) (b : Byte) : (s.setDelay b).sp = s.sp := rfl
@[simp] theorem setDelay_stack (s : State) (b : Byte) : (s.setDelay b).stack = s.stack := rfl
@[simp] theorem setDelay_delayTimer (s : State) (b : Byte) : (s.setDelay b).delayTimer = b := rfl
@[simp] theorem setDelay_soundTimer (s : State) (b : Byte) : (s.setDelay b).soundTimer = s.soundTimer := rfl
@[simp] theorem setDelay_mem (s : State) (b : Byte) : (s.setDelay b).mem = s.mem := rfl
@[simp] theorem setDelay_fb (s : State) (b : Byte) : (s.setDelay b).fb = s.fb := rfl
@[simp] theorem setDelay_dirty (s : State) (b : Byte) : (s.setDelay b).dirty = s.dirty := rfl
@[simp] theorem setDelay_halted (s : State) (b : Byte) : (s.setDelay b).halted = s.halted := rfl
@[simp] theorem setDelay_faultCause (s : State) (b : Byte) : (s.setDelay b).faultCause = s.faultCause := rfl
@[simp] theorem setDelay_faultPc (s : State) (b : Byte) : (s.setDelay b).faultPc = s.faultPc := rfl
@[simp] theorem setDelay_faultWord (s : State) (b : Byte) : (s.setDelay b).faultWord = s.faultWord := rfl
@[simp] theorem setDelay_font (s : State) (b : Byte) : (s.setDelay b).font = s.font := rfl
@[simp] theorem setDelay_host (s : State) (b : Byte) : (s.setDelay b).host = s.host := rfl
@[simp] theorem setDelay_reg (s : State) (b : Byte) (y : Nibble) : (s.setDelay b).reg y = s.reg y := rfl
@[simp] theorem setDelay_byteAt (s : State) (b : Byte) (a : Nat) : (s.setDelay b).byteAt a = s.byteAt a := rfl

@[simp] theorem setSound_v (s : State) (b : Byte) : (s.setSound b).v = s.v := rfl
@[simp] theorem setSound_index (s : State) (b : Byte) : (s.setSound b).index = s.index := rfl
@[simp] theorem setSound_pc (s : State) (b : Byte) : (s.setSound b).pc = s.pc := rfl
@[simp] theorem setSound_sp (s : State) (b : Byte) : (s.setSound b).sp = s.sp := rfl
@[simp] theorem setSound_stack (s : State) (b : Byte) : (s.setSound b).stack = s.stack := rfl
@[simp] theorem setSound_delayTimer (s : State) (b : Byte) : (s.setSound b).delayTimer = s.delayTimer := rfl
@[simp] theorem setSound_soundTimer (s : State) (b : Byte) : (s.setSound b).soundTimer = b := rfl
@[simp] theorem setSound_mem (s : State) (b : Byte) : (s.setSound b).mem = s.mem := rfl
@[simp] theorem setSound_fb (s : State) (b : Byte) : (s.setSound b).fb = s.fb := rfl
@[simp] theorem setSound_dirty (s : State) (b : Byte) : (s.setSound b).dirty = s.dirty := rfl
@[simp] theorem setSound_halted (s : State) (b : Byte) : (s.setSound b).halted = s.halted := rfl
@[simp] theorem setSound_faultCause (s : State) (b : Byte) : (s.setSound b).faultCause = s.faultCause := rfl
@[simp] theorem setSound_faultPc (s : State) (b : Byte) : (s.setSound b).faultPc = s.faultPc := rfl
@[simp] theorem setSound_faultWord (s : State) (b : Byte) : (s.setSound b).faultWord = s.faultWord := rfl
@[simp] theorem setSound_font (s : State) (b : Byte) : (s.setSound b).font = s.font := rfl
@[simp] theorem setSound_host (s : State) (b : Byte) : (s.setSound b).host = s.host := rfl
@[simp] theorem setSound_reg (s : State) (b : Byte) (y : Nibble) : (s.setSound b).reg y = s.reg y := rfl
@[simp] theorem setSound_byteAt (s : State) (b : Byte) (a : Nat) : (s.setSound b).byteAt a = s.byteAt a := rfl

@[simp] theorem setMem_v (s : State) (m : Memory) : (s.setMem m).v = s.v := rfl
@[simp] theorem setMem_index (s : State) (m : Memory) : (s.setMem m).index = s.index := rfl
@[simp] theorem setMem_pc (s : State) (m : Memory) : (s.setMem m).pc = s.pc := rfl
@[simp] theorem setMem_sp (s : State) (m : Memory) : (s.setMem m).sp = s.sp := rfl
@[simp] theorem setMem_stack (s : State) (m : Memory) : (s.setMem m).stack = s.stack := rfl
@[simp] theorem setMem_delayTimer (s : State) (m : Memory) : (s.setMem m).delayTimer = s.delayTimer := rfl
@[simp] theorem setMem_soundTimer (s : State) (m : Memory) : (s.setMem m).soundTimer = s.soundTimer := rfl
@[simp] theorem setMem_mem (s : State) (m : Memory) : (s.setMem m).mem = m := rfl
@[simp] theorem setMem_fb (s : State) (m : Memory) : (s.setMem m).fb = s.fb := rfl
@[simp] theorem setMem_dirty (s : State) (m : Memory) : (s.setMem m).dirty = s.dirty := rfl
@[simp] theorem setMem_halted (s : State) (m : Memory) : (s.setMem m).halted = s.halted := rfl
@[simp] theorem setMem_faultCause (s : State) (m : Memory) : (s.setMem m).faultCause = s.faultCause := rfl
@[simp] theorem setMem_faultPc (s : State) (m : Memory) : (s.setMem m).faultPc = s.faultPc := rfl
@[simp] theorem setMem_faultWord (s : State) (m : Memory) : (s.setMem m).faultWord = s.faultWord := rfl
@[simp] theorem setMem_font (s : State) (m : Memory) : (s.setMem m).font = s.font := rfl
@[simp] theorem setMem_host (s : State) (m : Memory) : (s.setMem m).host = s.host := rfl
@[simp] theorem setMem_reg (s : State) (m : Memory) (y : Nibble) : (s.setMem m).reg y = s.reg y := rfl
@[simp] theorem setMem_byteAt (s : State) (m : Memory) (a : Nat) : (s.setMem m).byteAt a = m.read s.font a := rfl

@[simp] theorem setScreen_v (s : State) (fb : Framebuffer) : (s.setScreen fb).v = s.v := rfl
@[simp] theorem setScreen_index (s : State) (fb : Framebuffer) : (s.setScreen fb).index = s.index := rfl
@[simp] theorem setScreen_pc (s : State) (fb : Framebuffer) : (s.setScreen fb).pc = s.pc := rfl
@[simp] theorem setScreen_sp (s : State) (fb : Framebuffer) : (s.setScreen fb).sp = s.sp := rfl
@[simp] theorem setScreen_stack (s : State) (fb : Framebuffer) : (s.setScreen fb).stack = s.stack := rfl
@[simp] theorem setScreen_delayTimer (s : State) (fb : Framebuffer) : (s.setScreen fb).delayTimer = s.delayTimer := rfl
@[simp] theorem setScreen_soundTimer (s : State) (fb : Framebuffer) : (s.setScreen fb).soundTimer = s.soundTimer := rfl
@[simp] theorem setScreen_mem (s : State) (fb : Framebuffer) : (s.setScreen fb).mem = s.mem := rfl
@[simp] theorem setScreen_fb (s : State) (fb : Framebuffer) : (s.setScreen fb).fb = fb := rfl
@[simp] theorem setScreen_dirty (s : State) (fb : Framebuffer) : (s.setScreen fb).dirty = true := rfl
@[simp] theorem setScreen_halted (s : State) (fb : Framebuffer) : (s.setScreen fb).halted = s.halted := rfl
@[simp] theorem setScreen_faultCause (s : State) (fb : Framebuffer) : (s.setScreen fb).faultCause = s.faultCause := rfl
@[simp] theorem setScreen_faultPc (s : State) (fb : Framebuffer) : (s.setScreen fb).faultPc = s.faultPc := rfl
@[simp] theorem setScreen_faultWord (s : State) (fb : Framebuffer) : (s.setScreen fb).faultWord = s.faultWord := rfl
@[simp] theorem setScreen_font (s : State) (fb : Framebuffer) : (s.setScreen fb).font = s.font := rfl
@[simp] theorem setScreen_host (s : State) (fb : Framebuffer) : (s.setScreen fb).host = s.host := rfl
@[simp] theorem setScreen_reg (s : State) (fb : Framebuffer) (y : Nibble) : (s.setScreen fb).reg y = s.reg y := rfl
@[simp] theorem setScreen_byteAt (s : State) (fb : Framebuffer) (a : Nat) : (s.setScreen fb).byteAt a = s.byteAt a := rfl

@[simp] theorem raise_v (s : State) (c : Cause) (w : Word) : (s.raise c w).v = s.v := rfl
@[simp] theorem raise_index (s : State) (c : Cause) (w : Word) : (s.raise c w).index = s.index := rfl
@[simp] theorem raise_pc (s : State) (c : Cause) (w : Word) : (s.raise c w).pc = s.pc := rfl
@[simp] theorem raise_sp (s : State) (c : Cause) (w : Word) : (s.raise c w).sp = s.sp := rfl
@[simp] theorem raise_stack (s : State) (c : Cause) (w : Word) : (s.raise c w).stack = s.stack := rfl
@[simp] theorem raise_delayTimer (s : State) (c : Cause) (w : Word) : (s.raise c w).delayTimer = s.delayTimer := rfl
@[simp] theorem raise_soundTimer (s : State) (c : Cause) (w : Word) : (s.raise c w).soundTimer = s.soundTimer := rfl
@[simp] theorem raise_mem (s : State) (c : Cause) (w : Word) : (s.raise c w).mem = s.mem := rfl
@[simp] theorem raise_fb (s : State) (c : Cause) (w : Word) : (s.raise c w).fb = s.fb := rfl
@[simp] theorem raise_dirty (s : State) (c : Cause) (w : Word) : (s.raise c w).dirty = s.dirty := rfl
@[simp] theorem raise_halted (s : State) (c : Cause) (w : Word) : (s.raise c w).halted = true := rfl
@[simp] theorem raise_faultCause (s : State) (c : Cause) (w : Word) : (s.raise c w).faultCause = causeCode c := rfl
@[simp] theorem raise_faultPc (s : State) (c : Cause) (w : Word) : (s.raise c w).faultPc = s.pc := rfl
@[simp] theorem raise_faultWord (s : State) (c : Cause) (w : Word) : (s.raise c w).faultWord = w := rfl
@[simp] theorem raise_font (s : State) (c : Cause) (w : Word) : (s.raise c w).font = s.font := rfl
@[simp] theorem raise_host (s : State) (c : Cause) (w : Word) : (s.raise c w).host = s.host := rfl
@[simp] theorem raise_reg (s : State) (c : Cause) (w : Word) (y : Nibble) : (s.raise c w).reg y = s.reg y := rfl
@[simp] theorem raise_byteAt (s : State) (c : Cause) (w : Word) (a : Nat) : (s.raise c w).byteAt a = s.byteAt a := rfl

@[simp] theorem tick_v (s : State) : (s.tick).v = s.v := rfl
@[simp] theorem tick_index (s : State) : (s.tick).index = s.index := rfl
@[simp] theorem tick_pc (s : State) : (s.tick).pc = s.pc := rfl
@[simp] theorem tick_sp (s : State) : (s.tick).sp = s.sp := rfl
@[simp] theorem tick_stack (s : State) : (s.tick).stack = s.stack := rfl
@[simp] theorem tick_delayTimer (s : State) : (s.tick).delayTimer = countDown s.delayTimer := rfl
@[simp] theorem tick_soundTimer (s : State) : (s.tick).soundTimer = countDown s.soundTimer := rfl
@[simp] theorem tick_mem (s : State) : (s.tick).mem = s.mem := rfl
@[simp] theorem tick_fb (s : State) : (s.tick).fb = s.fb := rfl
@[simp] theorem tick_dirty (s : State) : (s.tick).dirty = s.dirty := rfl
@[simp] theorem tick_halted (s : State) : (s.tick).halted = s.halted := rfl
@[simp] theorem tick_faultCause (s : State) : (s.tick).faultCause = s.faultCause := rfl
@[simp] theorem tick_faultPc (s : State) : (s.tick).faultPc = s.faultPc := rfl
@[simp] theorem tick_faultWord (s : State) : (s.tick).faultWord = s.faultWord := rfl
@[simp] theorem tick_font (s : State) : (s.tick).font = s.font := rfl
@[simp] theorem tick_host (s : State) : (s.tick).host = s.host := rfl
@[simp] theorem tick_reg (s : State) (y : Nibble) : (s.tick).reg y = s.reg y := rfl
@[simp] theorem tick_byteAt (s : State) (a : Nat) : (s.tick).byteAt a = s.byteAt a := rfl

@[simp] theorem consumed_v (s : State) : (s.consumed).v = s.v := rfl
@[simp] theorem consumed_index (s : State) : (s.consumed).index = s.index := rfl
@[simp] theorem consumed_pc (s : State) : (s.consumed).pc = s.pc := rfl
@[simp] theorem consumed_sp (s : State) : (s.consumed).sp = s.sp := rfl
@[simp] theorem consumed_stack (s : State) : (s.consumed).stack = s.stack := rfl
@[simp] theorem consumed_delayTimer (s : State) : (s.consumed).delayTimer = s.delayTimer := rfl
@[simp] theorem consumed_soundTimer (s : State) : (s.consumed).soundTimer = s.soundTimer := rfl
@[simp] theorem consumed_mem (s : State) : (s.consumed).mem = s.mem := rfl
@[simp] theorem consumed_fb (s : State) : (s.consumed).fb = s.fb := rfl
@[simp] theorem consumed_dirty (s : State) : (s.consumed).dirty = false := rfl
@[simp] theorem consumed_halted (s : State) : (s.consumed).halted = s.halted := rfl
@[simp] theorem consumed_faultCause (s : State) : (s.consumed).faultCause = s.faultCause := rfl
@[simp] theorem consumed_faultPc (s : State) : (s.consumed).faultPc = s.faultPc := rfl
@[simp] theorem consumed_faultWord (s : State) : (s.consumed).faultWord = s.faultWord := rfl
@[simp] theorem consumed_font (s : State) : (s.consumed).font = s.font := rfl
@[simp] theorem consumed_host (s : State) : (s.consumed).host = s.host := rfl
@[simp] theorem consumed_reg (s : State) (y : Nibble) : (s.consumed).reg y = s.reg y := rfl
@[simp] theorem consumed_byteAt (s : State) (a : Nat) : (s.consumed).byteAt a = s.byteAt a := rfl

@[simp] theorem present_v (s : State) (k : Keys) (r : Byte) : (s.present k r).v = s.v := rfl
@[simp] theorem present_index (s : State) (k : Keys) (r : Byte) : (s.present k r).index = s.index := rfl
@[simp] theorem present_pc (s : State) (k : Keys) (r : Byte) : (s.present k r).pc = s.pc := rfl
@[simp] theorem present_sp (s : State) (k : Keys) (r : Byte) : (s.present k r).sp = s.sp := rfl
@[simp] theorem present_stack (s : State) (k : Keys) (r : Byte) : (s.present k r).stack = s.stack := rfl
@[simp] theorem present_delayTimer (s : State) (k : Keys) (r : Byte) : (s.present k r).delayTimer = s.delayTimer := rfl
@[simp] theorem present_soundTimer (s : State) (k : Keys) (r : Byte) : (s.present k r).soundTimer = s.soundTimer := rfl
@[simp] theorem present_mem (s : State) (k : Keys) (r : Byte) : (s.present k r).mem = s.mem := rfl
@[simp] theorem present_fb (s : State) (k : Keys) (r : Byte) : (s.present k r).fb = s.fb := rfl
@[simp] theorem present_dirty (s : State) (k : Keys) (r : Byte) : (s.present k r).dirty = s.dirty := rfl
@[simp] theorem present_halted (s : State) (k : Keys) (r : Byte) : (s.present k r).halted = s.halted := rfl
@[simp] theorem present_faultCause (s : State) (k : Keys) (r : Byte) : (s.present k r).faultCause = s.faultCause := rfl
@[simp] theorem present_faultPc (s : State) (k : Keys) (r : Byte) : (s.present k r).faultPc = s.faultPc := rfl
@[simp] theorem present_faultWord (s : State) (k : Keys) (r : Byte) : (s.present k r).faultWord = s.faultWord := rfl
@[simp] theorem present_font (s : State) (k : Keys) (r : Byte) : (s.present k r).font = s.font := rfl
@[simp] theorem present_reg (s : State) (k : Keys) (r : Byte) (y : Nibble) : (s.present k r).reg y = s.reg y := rfl
@[simp] theorem present_byteAt (s : State) (k : Keys) (r : Byte) (a : Nat) : (s.present k r).byteAt a = s.byteAt a := rfl

@[simp] theorem present_keys (s : State) (k : Keys) (r : Byte) : (s.present k r).host.keys = k := rfl
@[simp] theorem present_rnd (s : State) (k : Keys) (r : Byte) : (s.present k r).host.rnd = r := rfl
@[simp] theorem present_script (s : State) (k : Keys) (r : Byte) : (s.present k r).host.script = s.host.script := rfl
@[simp] theorem present_drawn (s : State) (k : Keys) (r : Byte) : (s.present k r).host.drawn = s.host.drawn := rfl

/-- A register after one is written. -/
@[simp] theorem setReg_reg (s : State) (x y : Nibble) (b : Byte) :
    (s.setReg x b).reg y = if x = y then b else s.reg y := by
  simp [State.reg, State.setReg, Vector.getElem_set, BitVec.toNat_inj]

/-- A register after the flag is written. -/
@[simp] theorem setFlag_reg (s : State) (y : Nibble) (c : Bool) :
    (s.setFlag c).reg y = if 0xF#4 = y then flagByte c else s.reg y := setReg_reg s 0xF#4 y _

/-- A register of the file after a block is written from register `k` on. -/
theorem getElem_regsFrom : ∀ (bs : List Byte) (v : Vector Byte 16) (k j : Nat) (hj : j < 16),
    (regsFrom v k bs)[j] = if k ≤ j then (bs[j - k]?).getD v[j] else v[j]
  | [], v, k, j, hj => by simp [regsFrom]
  | b :: bs, v, k, j, hj => by
    rw [regsFrom, getElem_regsFrom bs _ (k + 1) j hj]
    rcases Nat.lt_trichotomy j k with h | rfl | h
    · rw [if_neg (by omega), if_neg (by omega)]
      split_ifs with hk
      · rw [Vector.getElem_set_ne _ _ (by omega)]
      · rfl
    · rw [if_neg (by omega), if_pos (le_refl _), Nat.sub_self, dif_pos hj, Vector.getElem_set_self]
      rfl
    · rw [if_pos (by omega), if_pos (by omega), show j - k = (j - (k + 1)) + 1 by omega, List.getElem?_cons_succ]
      congr 1
      split_ifs with hk
      · rw [Vector.getElem_set_ne _ _ (by omega)]
      · rfl

/-- A register after a block is loaded. -/
@[simp] theorem setRegs_reg (s : State) (bs : List Byte) (y : Nibble) :
    (s.setRegs bs).reg y = (bs[y.toNat]?).getD (s.reg y) := by
  simp [State.reg, State.setRegs, getElem_regsFrom]

/-- Two states with equal registers have equal register files. -/
theorem v_ext {s t : State} (h : ∀ r, t.reg r = s.reg r) : t.v = s.v := by
  apply Vector.ext
  intro k hk
  simpa [State.reg, BitVec.toNat_ofNat, Nat.mod_eq_of_lt hk] using h (BitVec.ofNat 4 k)

/-- Taking the host's next operation changes the host's side only. -/
theorem opTaken_eq (s : State) : s.opTaken = { s with host := s.opTaken.host } := by
  unfold State.opTaken
  split <;> rfl

@[simp] theorem opTaken_v (s : State) : s.opTaken.v = s.v := by rw [opTaken_eq]
@[simp] theorem opTaken_index (s : State) : s.opTaken.index = s.index := by rw [opTaken_eq]
@[simp] theorem opTaken_pc (s : State) : s.opTaken.pc = s.pc := by rw [opTaken_eq]
@[simp] theorem opTaken_sp (s : State) : s.opTaken.sp = s.sp := by rw [opTaken_eq]
@[simp] theorem opTaken_stack (s : State) : s.opTaken.stack = s.stack := by rw [opTaken_eq]
@[simp] theorem opTaken_delayTimer (s : State) : s.opTaken.delayTimer = s.delayTimer := by rw [opTaken_eq]
@[simp] theorem opTaken_soundTimer (s : State) : s.opTaken.soundTimer = s.soundTimer := by rw [opTaken_eq]
@[simp] theorem opTaken_mem (s : State) : s.opTaken.mem = s.mem := by rw [opTaken_eq]
@[simp] theorem opTaken_fb (s : State) : s.opTaken.fb = s.fb := by rw [opTaken_eq]
@[simp] theorem opTaken_dirty (s : State) : s.opTaken.dirty = s.dirty := by rw [opTaken_eq]
@[simp] theorem opTaken_halted (s : State) : s.opTaken.halted = s.halted := by rw [opTaken_eq]
@[simp] theorem opTaken_faultCause (s : State) : s.opTaken.faultCause = s.faultCause := by rw [opTaken_eq]
@[simp] theorem opTaken_faultPc (s : State) : s.opTaken.faultPc = s.faultPc := by rw [opTaken_eq]
@[simp] theorem opTaken_faultWord (s : State) : s.opTaken.faultWord = s.faultWord := by rw [opTaken_eq]
@[simp] theorem opTaken_font (s : State) : s.opTaken.font = s.font := by rw [opTaken_eq]
@[simp] theorem opTaken_reg (s : State) (y : Nibble) : s.opTaken.reg y = s.reg y := by rw [opTaken_eq]; rfl
@[simp] theorem opTaken_byteAt (s : State) (a : Nat) : s.opTaken.byteAt a = s.byteAt a := by rw [opTaken_eq]; rfl

/-- What a reset leaves: the state after `Initialize` with the machine's own `FONT`, the host's side kept, and the memory
with the image loaded when it fits. -/
theorem resetWith_eq (s : State) (image : List Byte) :
    s.resetWith image = { State.atReset s.font with
      host := s.host
      mem := if image.length > Config.romMax then [] else Memory.writeBytes s.font [] Config.progBase image } := by
  unfold State.resetWith loadResult State.initialized
  split_ifs <;> rfl

/-- What `Initialize` leaves in memory: the machine's own `FONT`, and 0 above it. -/
@[simp] theorem initialized_byteAt (s : State) (a : Nat) : s.initialized.byteAt a = Memory.initial s.font a := rfl

@[simp] theorem atReset_byteAt (f : Font) (a : Nat) : (State.atReset f).byteAt a = Memory.initial f a := rfl

@[simp] theorem resetWith_font (s : State) (image : List Byte) : (s.resetWith image).font = s.font := by
  rw [resetWith_eq]; rfl

end Sys2Proof.Machine
end

