-- ==== Sys2Proof/Laws/Ops.lean ====
section
/-! SUPPORT. One lemma for each shared operation that says everything it can do, and one for each level of the step:
an instruction, a cycle, an operation of the host. -/

namespace Sys2Proof.Machine

/-- An instruction whose own condition does not hold has its effect. -/
@[simp] theorem attempt_some (t : State) (c : Cause) (i : Instr) (s : State) : attempt (some t) c i s = .next t := rfl

/-- An instruction whose own condition holds raises it. -/
@[simp] theorem attempt_none (c : Cause) (i : Instr) (s : State) :
    attempt none c i s = .next (s.raise c (encode i)) := rfl

/-- A push onto a stack that is not full. -/
theorem push_of_lt {s : State} (h : s.sp.val < 16) (w : Word) : s.push w =
    some { s with stack := s.stack.set s.sp.val w h, sp := ⟨s.sp.val + 1, Nat.succ_lt_succ h⟩ } := by
  simp [State.push, h]

/-- A push onto a full stack. -/
theorem push_of_full {s : State} (h : s.sp.val = 16) (w : Word) : s.push w = none := by
  simp [State.push, h]

/-- A pop from a stack that is not empty. -/
theorem pop_of_pos {s : State} (h : s.sp.val ≠ 0) : s.pop =
    some (s.stack[s.sp.val - 1]'(by have := s.sp.isLt; omega),
      { s with sp := ⟨s.sp.val - 1, by have := s.sp.isLt; omega⟩ }) := by
  simp [State.pop, h]

/-- A pop from an empty stack. -/
theorem pop_of_empty {s : State} (h : s.sp.val = 0) : s.pop = none := by
  simp [State.pop, h]

/-- The key code of a register that holds one. -/
theorem keyCode_of_le {s : State} {x : Nibble} (h : (s.reg x).toNat ≤ 15) : s.keyCode x = some (s.reg x).toNat := by
  simp [State.keyCode, h]

/-- A register that holds no key code. -/
theorem keyCode_of_gt {s : State} {x : Nibble} (h : (s.reg x).toNat > 15) : s.keyCode x = none := by
  simp [State.keyCode, h]

/-- The scan for a key finds none exactly when none is down. -/
theorem firstKey_none (s : State) : s.firstKey = none ↔ s.host.keys = 0 := by
  simp only [State.firstKey, List.find?_eq_none, List.mem_range, State.keyDown, Bool.not_eq_true]
  constructor
  · intro h
    apply BitVec.eq_of_getLsbD_eq
    intro k hk
    simpa using h k hk
  · intro h k _
    simp [h]

/-- The scan for a key finds the lowest one down. -/
theorem firstKey_some (s : State) (k : Nat) : s.firstKey = some k ↔
    k < 16 ∧ s.host.keys.getLsbD k = true ∧ ∀ j < k, s.host.keys.getLsbD j = false := by
  simp only [State.firstKey, State.keyDown]
  constructor
  · intro h
    rw [List.find?_range_eq_some] at h
    simpa [and_comm, and_assoc, and_left_comm] using h
  · intro ⟨h1, h2, h3⟩
    rw [List.find?_range_eq_some]
    simpa [h1, h2] using h3

/-- A load whose addresses all exist answers the bytes there. -/
theorem loadBytes_of_le {s : State} {a n : Nat} (h : n = 0 ∨ a + n ≤ Config.memSize) :
    s.loadBytes a n = some ((List.range n).map fun j => s.byteAt (a + j)) :=
  load_eq_some.2 ⟨inRange_iff.2 h, rfl⟩

/-- A load of bytes one of which does not exist. -/
theorem loadBytes_of_gt {s : State} {a n : Nat} (hn : 0 < n) (h : Config.memSize < a + n) : s.loadBytes a n = none :=
  load_eq_none.2 (by rw [← Bool.not_eq_true, inRange_iff]; omega)

/-- A store whose addresses all exist answers the state with the bytes written. -/
theorem storeBytes_of_le {s : State} {a : Nat} {bs : List Byte} (h : bs = [] ∨ a + bs.length ≤ Config.memSize) :
    s.storeBytes a bs = some (s.setMem (s.mem.writeBytes s.font a bs)) := by
  rw [State.storeBytes, store_eq_some.2 ⟨inRange_iff.2 (h.imp_left fun h => by rw [h]; rfl), rfl⟩]
  rfl

/-- A store of bytes one of which has no address. -/
theorem storeBytes_of_gt {s : State} {a : Nat} {bs : List Byte} (hn : 0 < bs.length)
    (h : Config.memSize < a + bs.length) : s.storeBytes a bs = none := by
  rw [State.storeBytes, store_eq_none.2 (by rw [← Bool.not_eq_true, inRange_iff]; omega)]
  rfl

/-- Everything a store that answers has done: only memory is changed, its canonical form is kept, and a byte reads as
stored or as before. -/
theorem storeBytes_cases {s t : State} {a : Nat} {bs : List Byte} (hw : Memory.wf s.font s.mem = true)
    (h : s.storeBytes a bs = some t) : t = s.setMem t.mem ∧ Memory.wf t.font t.mem = true ∧
      ∀ b, t.byteAt b = if a ≤ b then (bs[b - a]?).getD (s.byteAt b) else s.byteAt b := by
  obtain ⟨m, hm, rfl⟩ := Option.map_eq_some_iff.1 h
  exact ⟨rfl, wf_store hw hm, read_store hw hm⟩

/-- A fetch below 0xFFF. -/
theorem fetch_of_le {s : State} (h : s.pc.toNat ≤ 0xFFE) :
    s.fetch = some (joinBytes (s.byteAt s.pc.toNat) (s.byteAt (s.pc.toNat + 1))) := by
  have hr : Memory.inRange s.pc.toNat 2 = true := inRange_iff.2 (Or.inr (by unfold Config.memSize; omega))
  simp [State.fetch, State.loadBytes, State.byteAt, Memory.load, hr, List.range_succ]

/-- A fetch at 0xFFF or above. -/
theorem fetch_of_gt {s : State} (h : s.pc.toNat > 0xFFE) : s.fetch = none := by
  have hr : ¬ Memory.inRange s.pc.toNat 2 = true := by
    rw [inRange_iff]; unfold Config.memSize; omega
  simp [State.fetch, State.loadBytes, Memory.load, hr]

/-- What one cycle can do: nothing when halted, a fetch fault, a decode failure, or the decoded instruction. -/
theorem cycle_cases (s : State) :
    (s.halted = true ∧ cycle s = .next s) ∨
    (s.halted = false ∧ s.fetch = none ∧ cycle s = .next (s.raise .memoryRange 0)) ∨
    (s.halted = false ∧ ∃ w r, s.fetch = some w ∧ decodeWord w = .error r ∧
      cycle s = .next (s.raise .decodeFailure w)) ∨
    (s.halted = false ∧ ∃ w i, s.fetch = some w ∧ decodeWord w = .ok i ∧ cycle s = exec i s) := by
  cases hh : s.halted with
  | true => exact .inl ⟨rfl, by simp [cycle, hh]⟩
  | false =>
    refine .inr ?_
    cases hf : s.fetch with
    | none => exact .inl ⟨rfl, rfl, by simp [cycle, hh, hf]⟩
    | some w =>
      refine .inr ?_
      cases hd : decodeWord w with
      | error r => exact .inl ⟨rfl, w, r, rfl, hd, by simp [cycle, hh, hf, decodeAndExecute, hd]⟩
      | ok i => exact .inr ⟨rfl, w, i, rfl, hd, by simp [cycle, hh, hf, decodeAndExecute, hd]⟩

/-- What one step can do: the operation of the host that comes next. -/
theorem step_cases (s : State) :
    (∃ k r, s.nextOp = .cycle k r ∧ step s = cycle (s.opTaken.present k r)) ∨
    (s.nextOp = .tick ∧ step s = .next s.opTaken.tick) ∨
    (s.nextOp = .displayConsume ∧ s.dirty = true ∧ step s = .next s.opTaken.consumed) ∨
    (s.nextOp = .displayConsume ∧ s.dirty = false ∧ step s = .fault .consumeNotEnabled) ∨
    (∃ image, s.nextOp = .reset image ∧ step s = .next (s.opTaken.resetWith image)) := by
  cases hop : s.nextOp with
  | cycle k r => exact .inl ⟨k, r, rfl, by simp [step, hop, perform]⟩
  | tick => exact .inr (.inl ⟨rfl, by simp [step, hop, perform]⟩)
  | displayConsume =>
    cases hs : s.dirty with
    | true => exact .inr (.inr (.inl ⟨rfl, rfl, by simp [step, hop, perform, hs]⟩))
    | false => exact .inr (.inr (.inr (.inl ⟨rfl, rfl, by simp [step, hop, perform, hs]⟩)))
  | reset image => exact .inr (.inr (.inr (.inr ⟨image, rfl, by simp [step, hop, perform]⟩)))

end Sys2Proof.Machine
end

