-- ==== Sys2Proof/Laws/PerInstr.lean ====
section
/-! SUPPORT. One statement per instruction about its encoding: the word of every instruction is in the opcode map of R63,
under the row of its own mnemonic. -/

namespace Sys2Proof

/-- The word of the instruction is accepted by the row of the opcode map that has the instruction's mnemonic. -/
def Laws.InOpcodeMap.Statement (i : Instr) : Prop :=
  ∃ r ∈ opcodeRows, r.mnemonic = i.mnemonic ∧ r.accepts (encode i) = true

/-- A word in format `A` under the mask of its family. -/
theorem wordA_mask (f : Nibble) (a : Addr) : wordA f a &&& 0xF000 = wordA f 0 := by
  apply BitVec.eq_of_getLsbD_eq
  intro i hi
  rw [BitVec.getLsbD_and, getLsbD_wordA, getLsbD_wordA]
  interval_cases i <;> simp

/-- A word in format `XK` under the mask of its family. -/
theorem wordXK_mask (f x : Nibble) (k : Byte) : wordXK f x k &&& 0xF000 = wordXK f 0 0 := by
  apply BitVec.eq_of_getLsbD_eq
  intro i hi
  rw [BitVec.getLsbD_and, getLsbD_wordXK, getLsbD_wordXK]
  interval_cases i <;> simp

/-- A word in format `X` under the mask of its family and sub-opcode. -/
theorem wordX_mask (f x : Nibble) (k : Byte) : wordXK f x k &&& 0xF0FF = wordXK f 0 k := by
  apply BitVec.eq_of_getLsbD_eq
  intro i hi
  rw [BitVec.getLsbD_and, getLsbD_wordXK, getLsbD_wordXK]
  interval_cases i <;> simp

/-- A word in format `XYN` under the mask of its family. -/
theorem wordXYN_mask (f x y n : Nibble) : wordXYN f x y n &&& 0xF000 = wordXYN f 0 0 0 := by
  apply BitVec.eq_of_getLsbD_eq
  intro i hi
  rw [BitVec.getLsbD_and, getLsbD_wordXYN, getLsbD_wordXYN]
  interval_cases i <;> simp

/-- A word in format `XY` under the mask of its family and sub-opcode. -/
theorem wordXY_mask (f x y n : Nibble) : wordXYN f x y n &&& 0xF00F = wordXYN f 0 0 n := by
  apply BitVec.eq_of_getLsbD_eq
  intro i hi
  rw [BitVec.getLsbD_and, getLsbD_wordXYN, getLsbD_wordXYN]
  interval_cases i <;> simp

/-- A row of the map with the instruction's mnemonic whose mask and pattern fit the instruction's word. -/
theorem inMap (i : Instr) (r : OpcodeRow) (h : r ∈ opcodeRows) (hm : r.mnemonic = i.mnemonic)
    (hw : encode i &&& r.mask = r.pattern) : Laws.InOpcodeMap.Statement i :=
  ⟨r, h, hm, by simpa [OpcodeRow.accepts] using hw⟩

theorem Laws.InOpcodeMap.cls : Laws.InOpcodeMap.Statement .cls :=
  inMap _ ⟨"CLS", 0xFFFF, 0x00E0⟩ (by decide) rfl (by decide)

theorem Laws.InOpcodeMap.ret : Laws.InOpcodeMap.Statement .ret :=
  inMap _ ⟨"RET", 0xFFFF, 0x00EE⟩ (by decide) rfl (by decide)

theorem Laws.InOpcodeMap.jp (nnn : Addr) : Laws.InOpcodeMap.Statement (.jp nnn) :=
  inMap _ ⟨"JP", 0xF000, 0x1000⟩ (by decide) rfl (wordA_mask _ _)

theorem Laws.InOpcodeMap.call (nnn : Addr) : Laws.InOpcodeMap.Statement (.call nnn) :=
  inMap _ ⟨"CALL", 0xF000, 0x2000⟩ (by decide) rfl (wordA_mask _ _)

theorem Laws.InOpcodeMap.seImm (x : Nibble) (kk : Byte) : Laws.InOpcodeMap.Statement (.seImm x kk) :=
  inMap _ ⟨"SE_IMM", 0xF000, 0x3000⟩ (by decide) rfl (wordXK_mask _ _ _)

theorem Laws.InOpcodeMap.sneImm (x : Nibble) (kk : Byte) : Laws.InOpcodeMap.Statement (.sneImm x kk) :=
  inMap _ ⟨"SNE_IMM", 0xF000, 0x4000⟩ (by decide) rfl (wordXK_mask _ _ _)

theorem Laws.InOpcodeMap.seReg (x y : Nibble) : Laws.InOpcodeMap.Statement (.seReg x y) :=
  inMap _ ⟨"SE_REG", 0xF00F, 0x5000⟩ (by decide) rfl (wordXY_mask _ _ _ _)

theorem Laws.InOpcodeMap.ldImm (x : Nibble) (kk : Byte) : Laws.InOpcodeMap.Statement (.ldImm x kk) :=
  inMap _ ⟨"LD_IMM", 0xF000, 0x6000⟩ (by decide) rfl (wordXK_mask _ _ _)

theorem Laws.InOpcodeMap.addImm (x : Nibble) (kk : Byte) : Laws.InOpcodeMap.Statement (.addImm x kk) :=
  inMap _ ⟨"ADD_IMM", 0xF000, 0x7000⟩ (by decide) rfl (wordXK_mask _ _ _)

theorem Laws.InOpcodeMap.ldReg (x y : Nibble) : Laws.InOpcodeMap.Statement (.ldReg x y) :=
  inMap _ ⟨"LD_REG", 0xF00F, 0x8000⟩ (by decide) rfl (wordXY_mask _ _ _ _)

theorem Laws.InOpcodeMap.or (x y : Nibble) : Laws.InOpcodeMap.Statement (.or x y) :=
  inMap _ ⟨"OR", 0xF00F, 0x8001⟩ (by decide) rfl (wordXY_mask _ _ _ _)

theorem Laws.InOpcodeMap.and (x y : Nibble) : Laws.InOpcodeMap.Statement (.and x y) :=
  inMap _ ⟨"AND", 0xF00F, 0x8002⟩ (by decide) rfl (wordXY_mask _ _ _ _)

theorem Laws.InOpcodeMap.xor (x y : Nibble) : Laws.InOpcodeMap.Statement (.xor x y) :=
  inMap _ ⟨"XOR", 0xF00F, 0x8003⟩ (by decide) rfl (wordXY_mask _ _ _ _)

theorem Laws.InOpcodeMap.addReg (x y : Nibble) : Laws.InOpcodeMap.Statement (.addReg x y) :=
  inMap _ ⟨"ADD_REG", 0xF00F, 0x8004⟩ (by decide) rfl (wordXY_mask _ _ _ _)

theorem Laws.InOpcodeMap.sub (x y : Nibble) : Laws.InOpcodeMap.Statement (.sub x y) :=
  inMap _ ⟨"SUB", 0xF00F, 0x8005⟩ (by decide) rfl (wordXY_mask _ _ _ _)

theorem Laws.InOpcodeMap.shr (x y : Nibble) : Laws.InOpcodeMap.Statement (.shr x y) :=
  inMap _ ⟨"SHR", 0xF00F, 0x8006⟩ (by decide) rfl (wordXY_mask _ _ _ _)

theorem Laws.InOpcodeMap.subn (x y : Nibble) : Laws.InOpcodeMap.Statement (.subn x y) :=
  inMap _ ⟨"SUBN", 0xF00F, 0x8007⟩ (by decide) rfl (wordXY_mask _ _ _ _)

theorem Laws.InOpcodeMap.shl (x y : Nibble) : Laws.InOpcodeMap.Statement (.shl x y) :=
  inMap _ ⟨"SHL", 0xF00F, 0x800E⟩ (by decide) rfl (wordXY_mask _ _ _ _)

theorem Laws.InOpcodeMap.sneReg (x y : Nibble) : Laws.InOpcodeMap.Statement (.sneReg x y) :=
  inMap _ ⟨"SNE_REG", 0xF00F, 0x9000⟩ (by decide) rfl (wordXY_mask _ _ _ _)

theorem Laws.InOpcodeMap.ldI (nnn : Addr) : Laws.InOpcodeMap.Statement (.ldI nnn) :=
  inMap _ ⟨"LD_I", 0xF000, 0xA000⟩ (by decide) rfl (wordA_mask _ _)

theorem Laws.InOpcodeMap.jpV0 (nnn : Addr) : Laws.InOpcodeMap.Statement (.jpV0 nnn) :=
  inMap _ ⟨"JP_V0", 0xF000, 0xB000⟩ (by decide) rfl (wordA_mask _ _)

theorem Laws.InOpcodeMap.rnd (x : Nibble) (kk : Byte) : Laws.InOpcodeMap.Statement (.rnd x kk) :=
  inMap _ ⟨"RND", 0xF000, 0xC000⟩ (by decide) rfl (wordXK_mask _ _ _)

theorem Laws.InOpcodeMap.drw (x y n : Nibble) : Laws.InOpcodeMap.Statement (.drw x y n) :=
  inMap _ ⟨"DRW", 0xF000, 0xD000⟩ (by decide) rfl (wordXYN_mask _ _ _ _)

theorem Laws.InOpcodeMap.skp (x : Nibble) : Laws.InOpcodeMap.Statement (.skp x) :=
  inMap _ ⟨"SKP", 0xF0FF, 0xE09E⟩ (by decide) rfl (wordX_mask _ _ _)

theorem Laws.InOpcodeMap.sknp (x : Nibble) : Laws.InOpcodeMap.Statement (.sknp x) :=
  inMap _ ⟨"SKNP", 0xF0FF, 0xE0A1⟩ (by decide) rfl (wordX_mask _ _ _)

theorem Laws.InOpcodeMap.ldVxDt (x : Nibble) : Laws.InOpcodeMap.Statement (.ldVxDt x) :=
  inMap _ ⟨"LD_VX_DT", 0xF0FF, 0xF007⟩ (by decide) rfl (wordX_mask _ _ _)

theorem Laws.InOpcodeMap.ldVxK (x : Nibble) : Laws.InOpcodeMap.Statement (.ldVxK x) :=
  inMap _ ⟨"LD_VX_K", 0xF0FF, 0xF00A⟩ (by decide) rfl (wordX_mask _ _ _)

theorem Laws.InOpcodeMap.ldDtVx (x : Nibble) : Laws.InOpcodeMap.Statement (.ldDtVx x) :=
  inMap _ ⟨"LD_DT_VX", 0xF0FF, 0xF015⟩ (by decide) rfl (wordX_mask _ _ _)

theorem Laws.InOpcodeMap.ldStVx (x : Nibble) : Laws.InOpcodeMap.Statement (.ldStVx x) :=
  inMap _ ⟨"LD_ST_VX", 0xF0FF, 0xF018⟩ (by decide) rfl (wordX_mask _ _ _)

theorem Laws.InOpcodeMap.addI (x : Nibble) : Laws.InOpcodeMap.Statement (.addI x) :=
  inMap _ ⟨"ADD_I", 0xF0FF, 0xF01E⟩ (by decide) rfl (wordX_mask _ _ _)

theorem Laws.InOpcodeMap.ldF (x : Nibble) : Laws.InOpcodeMap.Statement (.ldF x) :=
  inMap _ ⟨"LD_F", 0xF0FF, 0xF029⟩ (by decide) rfl (wordX_mask _ _ _)

theorem Laws.InOpcodeMap.ldB (x : Nibble) : Laws.InOpcodeMap.Statement (.ldB x) :=
  inMap _ ⟨"LD_B", 0xF0FF, 0xF033⟩ (by decide) rfl (wordX_mask _ _ _)

theorem Laws.InOpcodeMap.ldMemVx (x : Nibble) : Laws.InOpcodeMap.Statement (.ldMemVx x) :=
  inMap _ ⟨"LD_MEM_VX", 0xF0FF, 0xF055⟩ (by decide) rfl (wordX_mask _ _ _)

theorem Laws.InOpcodeMap.ldVxMem (x : Nibble) : Laws.InOpcodeMap.Statement (.ldVxMem x) :=
  inMap _ ⟨"LD_VX_MEM", 0xF0FF, 0xF065⟩ (by decide) rfl (wordX_mask _ _ _)

end Sys2Proof
end

