-- ==== Sys2Proof/Tests/Slice0.lean ====
section
/-! SUPPORT. The model's own tests: words written out from the spec's encodings, ill-formed terms refused, one step per
instruction with the result taken from spec/95_test_vectors.md (its row is named in the comment), and for every
statement with hypotheses a state that meets them, clause by clause, at a boundary. -/

namespace Sys2Proof.Tests

open Sys2Proof.Machine

/-- The state after one step, or the same state where the step answers none. -/
def after (s : State) : State :=
  match step s with
  | .next t => t
  | _ => s

/-- One cycle of the word `w` placed at `PC` of `s`. -/
def run (w : Nat) (s : State) : State := after (s.withFetchWord 16 w)

/-- The reset state with two registers set. -/
def regs2 (x : Nibble) (a : Byte) (y : Nibble) (b : Byte) : State := (State.reset.setReg x a).setReg y b

/-- A state with its inputs set. -/
def inputs (s : State) (k : Keys) (r : Byte) : State := s.present k r

/-- A state whose host has queued one operation. -/
def queued (s : State) (op : HostOp) : State := { s with host := { s.host with script := [op] } }

/-- A state with a byte of memory set. -/
def poke (s : State) (a : Nat) (b : Byte) : State := s.setMem (s.mem.write s.font a b)

/-- The reset state of a machine whose `FONT` is 80 times the byte `b`. -/
def withFont (b : Byte) : State := State.atReset (Vector.replicate 80 b)

/-- A state with its stack pointer set. -/
def withSp (s : State) (n : Fin 17) : State := { s with sp := n }

/-! Decoding: words written out bit by bit from R62 and R63, and spec vectors E1 to E12. -/

theorem test_decode_00E0 : decodeWord 0b0000000011100000 = .ok .cls := rfl
theorem test_decode_00EE : decodeWord 0b0000000011101110 = .ok .ret := rfl
theorem test_decode_1nnn : decodeWord 0b0001001000110100 = .ok (.jp 0x234) := rfl
theorem test_decode_2nnn : decodeWord 0b0010101010111100 = .ok (.call 0xABC) := rfl
theorem test_decode_3xkk : decodeWord 0b0011010000010010 = .ok (.seImm 4 0x12) := rfl
theorem test_decode_4xkk : decodeWord 0b0100001100101010 = .ok (.sneImm 3 0x2A) := rfl
theorem test_decode_5xy0 : decodeWord 0b0101101010110000 = .ok (.seReg 0xA 0xB) := rfl
theorem test_decode_6xkk : decodeWord 0b0110101000101100 = .ok (.ldImm 0xA 0x2C) := rfl
theorem test_decode_7xkk : decodeWord 0b0111000100100000 = .ok (.addImm 1 0x20) := rfl
theorem test_decode_8xy0 : decodeWord 0b1000000100100000 = .ok (.ldReg 1 2) := rfl
theorem test_decode_8xy1 : decodeWord 0b1000000100100001 = .ok (.or 1 2) := rfl
theorem test_decode_8xy2 : decodeWord 0b1000000100100010 = .ok (.and 1 2) := rfl
theorem test_decode_8xy3 : decodeWord 0b1000000100100011 = .ok (.xor 1 2) := rfl
theorem test_decode_8xy4 : decodeWord 0b1000101010110100 = .ok (.addReg 0xA 0xB) := rfl
theorem test_decode_8xy5 : decodeWord 0b1000000000010101 = .ok (.sub 0 1) := rfl
theorem test_decode_8xy6 : decodeWord 0b1000000100100110 = .ok (.shr 1 2) := rfl
theorem test_decode_8xy7 : decodeWord 0b1000000000010111 = .ok (.subn 0 1) := rfl
theorem test_decode_8xyE : decodeWord 0b1000000100101110 = .ok (.shl 1 2) := rfl
theorem test_decode_9xy0 : decodeWord 0b1001000100100000 = .ok (.sneReg 1 2) := rfl
theorem test_decode_Annn : decodeWord 0b1010001011110000 = .ok (.ldI 0x2F0) := rfl
theorem test_decode_Bnnn : decodeWord 0b1011000111110000 = .ok (.jpV0 0x1F0) := rfl
theorem test_decode_Cxkk : decodeWord 0b1100001100001111 = .ok (.rnd 3 0x0F) := rfl
theorem test_decode_Dxyn : decodeWord 0b1101000100101111 = .ok (.drw 1 2 15) := rfl
theorem test_decode_Ex9E : decodeWord 0b1110010110011110 = .ok (.skp 5) := rfl
theorem test_decode_ExA1 : decodeWord 0b1110010110100001 = .ok (.sknp 5) := rfl
theorem test_decode_Fx07 : decodeWord 0b1111001100000111 = .ok (.ldVxDt 3) := rfl
theorem test_decode_Fx0A : decodeWord 0b1111011100001010 = .ok (.ldVxK 7) := rfl
theorem test_decode_Fx15 : decodeWord 0b1111001100010101 = .ok (.ldDtVx 3) := rfl
theorem test_decode_Fx18 : decodeWord 0b1111001100011000 = .ok (.ldStVx 3) := rfl
theorem test_decode_Fx1E : decodeWord 0b1111001000011110 = .ok (.addI 2) := rfl
theorem test_decode_Fx29 : decodeWord 0b1111010000101001 = .ok (.ldF 4) := rfl
theorem test_decode_Fx33 : decodeWord 0b1111000000110011 = .ok (.ldB 0) := rfl
theorem test_decode_Fx55 : decodeWord 0b1111001001010101 = .ok (.ldMemVx 2) := rfl
theorem test_decode_Fx65 : decodeWord 0b1111010001100101 = .ok (.ldVxMem 4) := rfl

/-- E2: the byte at the lower address is the high byte. -/
theorem test_decode_bytes : decode [0x34, 0x12, 0xFF] = .ok (.seImm 4 0x12, [0xFF]) := rfl

theorem test_table_word : decodeTableWord 16 0xD12F = some (.drw 1 2 15) := rfl

/-! Ill-formed terms, each refused by its check (spec vectors of section 2.9). -/

theorem smoke_family0 : decodeWord 0x00E1 = .error (.unknownFamily0 0x00E1) ∧ legalWord 0x00E1 = false := ⟨rfl, rfl⟩
theorem smoke_family5 : decodeWord 0x5121 = .error (.unknownFamily5 0x5121) ∧ legalWord 0x5121 = false := ⟨rfl, rfl⟩
theorem smoke_family8 : decodeWord 0x812F = .error (.unknownFamily8 0x812F) ∧ legalWord 0x812F = false := ⟨rfl, rfl⟩
theorem smoke_family9 : decodeWord 0x9121 = .error (.unknownFamily9 0x9121) ∧ legalWord 0x9121 = false := ⟨rfl, rfl⟩
theorem smoke_familyE : decodeWord 0xE1A2 = .error (.unknownFamilyE 0xE1A2) ∧ legalWord 0xE1A2 = false := ⟨rfl, rfl⟩
theorem smoke_familyF : decodeWord 0xFFFF = .error (.unknownFamilyF 0xFFFF) ∧ legalWord 0xFFFF = false := ⟨rfl, rfl⟩
theorem smoke_one_byte : decode [0x12] = .error .tooShort := rfl
theorem smoke_memory_unsorted : Memory.wf defaultFont [(0x301, 1), (0x300, 1)] = false := rfl
theorem smoke_memory_twice : Memory.wf defaultFont [(0x300, 1), (0x300, 2)] = false := rfl
theorem smoke_memory_outside : Memory.wf defaultFont [(0x1000, 1)] = false := rfl
theorem smoke_memory_default : Memory.wf defaultFont [(0x000, 0xF0)] = false := rfl
/-- No term of `Instr` is ill formed (log entry 10). -/
theorem smoke_instr : (Instr.drw 0xF 0xF 0).wellFormed = true := rfl

/-! One step per instruction; the comment names the row of spec/95_test_vectors.md. -/

/-- G1. -/
theorem test_cls : (run 0x00E0 { State.reset.setReg 0xF 1 with fb := Framebuffer.clear.toggle 63 31 }).fb.pixel 63 31 =
    false ∧ (run 0x00E0 (State.reset.setReg 0xF 1)).reg 0xF = 1 ∧ (run 0x00E0 State.reset).dirty = true := by decide

/-- F7. -/
theorem test_ret : (run 0x00EE { withSp State.reset 1 with stack := State.reset.stack.set 0 0x0204 }).pc = 0x0206 := by
  decide

/-- F8. -/
theorem test_ret_underflow : (run 0x00EE State.reset).faultCause = 3 ∧ (run 0x00EE State.reset).faultWord = 0x00EE ∧
    (run 0x00EE State.reset).pc = 0x200 := by decide

/-- F1. -/
theorem test_jp : (run 0x1234 State.reset).pc = 0x0234 := by decide

/-- F5. -/
theorem test_call : (run 0x2ABC (withSp State.reset 15)).stack[15] = 0x0200 ∧
    (run 0x2ABC (withSp State.reset 15)).sp = 16 ∧ (run 0x2ABC (withSp State.reset 15)).pc = 0x0ABC := by decide

/-- F6. -/
theorem test_call_overflow : (run 0x2ABC (withSp State.reset 16)).faultCause = 2 ∧
    (run 0x2ABC (withSp State.reset 16)).faultPc = 0x0200 ∧ (run 0x2ABC (withSp State.reset 16)).sp = 16 := by decide

/-- F13, F14. -/
theorem test_seImm : (run 0x332A (State.reset.setReg 3 0x2A)).pc = 0x0204 ∧
    (run 0x332A (State.reset.setReg 3 0x2B)).pc = 0x0202 := by decide

/-- F15, F16. -/
theorem test_sneImm : (run 0x432A (State.reset.setReg 3 0x2A)).pc = 0x0202 ∧
    (run 0x4300 (State.reset.setReg 3 0x2A)).pc = 0x0204 := by decide

/-- F17, F18. -/
theorem test_seReg : (run 0x5120 (regs2 1 7 2 7)).pc = 0x0204 ∧ (run 0x5120 (regs2 1 7 2 8)).pc = 0x0202 := by decide

/-- F20, F21. -/
theorem test_sneReg : (run 0x9120 (regs2 1 7 2 8)).pc = 0x0204 ∧ (run 0x9120 (regs2 1 7 2 7)).pc = 0x0202 := by decide

/-- A1. -/
theorem test_ldImm : (run 0x6A2C State.reset).reg 0xA = 0x2C := by decide

/-- A3. -/
theorem test_addImm : (run 0x7120 (regs2 1 0xF0 0xF 0x55)).reg 1 = 0x10 ∧
    (run 0x7120 (regs2 1 0xF0 0xF 0x55)).reg 0xF = 0x55 := by decide

/-- A7. -/
theorem test_ldReg : (run 0x8120 (State.reset.setReg 2 0x55)).reg 1 = 0x55 := by decide

/-- A8. -/
theorem test_or : (run 0x8121 ((regs2 1 0xF0 2 0x0F).setReg 0xF 1)).reg 1 = 0xFF ∧
    (run 0x8121 ((regs2 1 0xF0 2 0x0F).setReg 0xF 1)).reg 0xF = 1 := by decide

/-- A9. -/
theorem test_and : (run 0x8122 (regs2 1 0xF3 2 0x3C)).reg 1 = 0x30 := by decide

/-- A10. -/
theorem test_xor : (run 0x8123 (regs2 1 0xFF 2 0x0F)).reg 1 = 0xF0 := by decide

/-- A13, A15. -/
theorem test_addReg : (run 0x8014 (regs2 0 0xFE 1 0x01)).reg 0 = 0xFF ∧
    (run 0x8014 ((regs2 0 0xFE 1 0x01).setReg 0xF 1)).reg 0xF = 0 ∧
    (run 0x8014 (regs2 0 0xFF 1 0xFF)).reg 0 = 0xFE ∧ (run 0x8014 (regs2 0 0xFF 1 0xFF)).reg 0xF = 1 := by decide

/-- X2, X3: `VF` as destination and as operand. -/
theorem test_addReg_alias : (run 0x8F14 (regs2 0xF 5 1 1)).reg 0xF = 6 ∧ (run 0x82F4 (regs2 2 5 0xF 1)).reg 2 = 6 ∧
    (run 0x82F4 (regs2 2 5 0xF 1)).reg 0xF = 0 := by decide

/-- A19, A20. -/
theorem test_sub : (run 0x8015 ((regs2 0 7 1 7).setReg 0xF 1)).reg 0xF = 0 ∧ (run 0x8015 (regs2 0 0 1 0xFF)).reg 0 = 1 ∧
    (run 0x8015 (regs2 0 5 1 3)).reg 0xF = 1 := by decide

/-- A23. -/
theorem test_shr : (run 0x8126 (regs2 1 0x01 2 0xAA)).reg 1 = 0 ∧ (run 0x8126 (regs2 1 0x01 2 0xAA)).reg 0xF = 1 ∧
    (run 0x8126 (regs2 1 0x01 2 0xAA)).reg 2 = 0xAA := by decide

/-- A24, A25. -/
theorem test_subn : (run 0x8017 (regs2 0 1 1 3)).reg 0 = 2 ∧ (run 0x8017 (regs2 0 1 1 3)).reg 0xF = 1 ∧
    (run 0x8017 (regs2 0 3 1 1)).reg 0 = 0xFE ∧ (run 0x8017 (regs2 0 3 1 1)).reg 0xF = 0 := by decide

/-- A27. -/
theorem test_shl : (run 0x810E (State.reset.setReg 1 0x81)).reg 1 = 2 ∧
    (run 0x810E (State.reset.setReg 1 0x81)).reg 0xF = 1 := by decide

/-- M1. -/
theorem test_ldI : (run 0xA123 State.reset).index = 0x0123 := by decide

/-- F11, F12. -/
theorem test_jpV0 : (run 0xBFFF (State.reset.setReg 0 0xFF)).pc = 0x10FE ∧
    (run 0xB1F0 (regs2 0 0x12 1 0x77)).pc = 0x0202 := by decide

/-- A30. -/
theorem test_rnd : (run 0xC30F (inputs State.reset 0 0xA7)).reg 3 = 0x07 := by decide

/-- G4: horizontal wrap. -/
theorem test_drw_wrap : (run 0xD011 (poke ((regs2 0 60 1 0).setIndex 0x300) 0x300 0xFF)).fb.pixel 3 0 = true ∧
    (run 0xD011 (poke ((regs2 0 60 1 0).setIndex 0x300) 0x300 0xFF)).fb.pixel 4 0 = false ∧
    (run 0xD011 (poke ((regs2 0 60 1 0).setIndex 0x300) 0x300 0xFF)).fb.pixel 63 0 = true := by decide

/-- G12: a later row that does not collide leaves the flag set. -/
theorem test_drw_collision :
    (run 0xD012 { poke (poke (State.reset.setIndex 0x300) 0x300 0x80) 0x301 0x80 with
      fb := Framebuffer.clear.toggle 0 0 }).reg 0xF = 1 ∧
    (run 0xD012 { poke (poke (State.reset.setIndex 0x300) 0x300 0x80) 0x301 0x80 with
      fb := Framebuffer.clear.toggle 0 0 }).fb.pixel 0 0 = false := by decide

/-- K1, K2. -/
theorem test_skp : (run 0xE59E (inputs (State.reset.setReg 5 0x0A) 0x0400 0)).pc = 0x0204 ∧
    (run 0xE59E (State.reset.setReg 5 0x0A)).pc = 0x0202 := by decide

/-- K7. -/
theorem test_skp_range : (run 0xE59E (inputs (State.reset.setReg 5 0x10) 0xFFFF 0)).faultCause = 5 := by decide

/-- K4, K5. -/
theorem test_sknp : (run 0xE5A1 (inputs (State.reset.setReg 5 0x0A) 0x0400 0)).pc = 0x0202 ∧
    (run 0xE5A1 (State.reset.setReg 5 0x0A)).pc = 0x0204 := by decide

/-- K9, K10. -/
theorem test_ldVxK : (run 0xF20A (State.reset.setReg 2 0x77)).pc = 0x0200 ∧
    (run 0xF20A (inputs State.reset 0x8008 0)).reg 2 = 3 ∧ (run 0xF20A (inputs State.reset 0x8008 0)).pc = 0x202 := by
  decide

/-- K11: key 0xF alone. -/
theorem test_ldVxK_F : (run 0xF20A (inputs State.reset 0x8000 0)).reg 2 = 0x0F := by decide

/-- T1. -/
theorem test_ldVxDt : (run 0xF307 (State.reset.setDelay 0x3C)).reg 3 = 0x3C := by decide

/-- T3. -/
theorem test_ldDtVx : (run 0xF315 (State.reset.setDelay 0x50)).delayTimer = 0 := by decide

/-- T4. -/
theorem test_ldStVx : (run 0xF318 (State.reset.setReg 3 5)).soundTimer = 5 := by decide

/-- M4, M5. -/
theorem test_addI : (run 0xF11E ((State.reset.setReg 1 1).setIndex 0x0FFF)).index = 0x1000 ∧
    (run 0xF11E ((State.reset.setReg 1 2).setIndex 0xFFFF)).index = 0x0001 := by decide

/-- M8. -/
theorem test_ldF : (run 0xF029 (State.reset.setReg 0 0xFF)).index = 0x04FB := by decide

/-- M10. -/
theorem test_ldB : (run 0xF033 ((State.reset.setReg 0 0x9D).setIndex 0x300)).byteAt 0x300 = 1 ∧
    (run 0xF033 ((State.reset.setReg 0 0x9D).setIndex 0x300)).byteAt 0x301 = 5 ∧
    (run 0xF033 ((State.reset.setReg 0 0x9D).setIndex 0x300)).byteAt 0x302 = 7 := by decide

/-- M14. -/
theorem test_ldB_range : (run 0xF033 ((State.reset.setReg 0 0x64).setIndex 0xFFE)).faultCause = 4 ∧
    (run 0xF033 ((State.reset.setReg 0 0x64).setIndex 0xFFE)).byteAt 0xFFE = 0 := by decide

/-- M15. -/
theorem test_ldMemVx : (run 0xF155 ((regs2 0 0x11 1 0x22).setIndex 0x300)).byteAt 0x301 = 0x22 ∧
    (run 0xF155 ((regs2 0 0x11 1 0x22).setIndex 0x300)).index = 0x300 := by decide

/-- M17: nothing is stored. -/
theorem test_ldMemVx_range : (run 0xF155 ((regs2 0 0x7E 1 0x7F).setIndex 0xFFF)).byteAt 0xFFF = 0 ∧
    (run 0xF155 ((regs2 0 0x7E 1 0x7F).setIndex 0xFFF)).faultWord = 0xF155 := by decide

/-- M20 (with the default font). -/
theorem test_ldVxMem : (run 0xF465 (State.reset.setReg 5 0x99)).reg 4 = 0xF0 ∧
    (run 0xF465 (State.reset.setReg 5 0x99)).reg 5 = 0x99 := by decide

/-- M23. -/
theorem test_ldVxMem_range : (run 0xF165 ((regs2 0 1 1 2).setIndex 0xFFF)).reg 0 = 1 ∧
    (run 0xF165 ((regs2 0 1 1 2).setIndex 0xFFF)).faultCause = 4 := by decide

/-- Q1: a fetch at 0xFFF reports no word. -/
theorem test_fetch_range : (after (queued (State.reset.setPc 0xFFF) (.cycle 0 0))).faultCause = 4 ∧
    (after (queued (State.reset.setPc 0xFFF) (.cycle 0 0))).faultWord = 0 := by decide

/-- Z2: the first cycle after `Reset(empty image)`. -/
theorem test_empty_image : (after (queued State.reset (.cycle 0 0))).faultCause = 1 ∧
    (after (queued State.reset (.cycle 0 0))).faultPc = 0x200 := by decide

/-- T6. -/
theorem test_tick : (after (queued ((State.reset.setDelay 2).setSound 1) .tick)).delayTimer = 1 ∧
    (after (queued ((State.reset.setDelay 2).setSound 1) .tick)).soundTimer = 0 := by decide

/-- R47: the default glyph of digit F is F0 80 F0 80 80 at 0x04B, and a machine may have another `FONT`, which a reset
loads again after it was overwritten. -/
theorem test_font : ((List.range 5).map fun j => State.reset.byteAt (0x04B + j)) = [0xF0, 0x80, 0xF0, 0x80, 0x80] ∧
    (after (queued (poke (withFont 0xA5) 0x04F 0x00) (.reset []))).byteAt 0x04F = 0xA5 := by decide

/-- Z1. -/
theorem test_reset_image : (after (queued (State.reset.setReg 3 0x55) (.reset [0x60, 0x05]))).byteAt 0x201 = 5 ∧
    (after (queued (State.reset.setReg 3 0x55) (.reset [0x60, 0x05]))).reg 3 = 0 ∧
    hostReturn (.reset [0x60, 0x05]) State.reset = .load (.loaded 2) := by decide

/-! Witnesses: for every statement with hypotheses, a state that meets them, clause by clause. -/

theorem witness_StepRunsDecodedInstruction :
    (State.reset.withFetchWord 16 0x6A2C).nextOp = .cycle 0 0 ∧
    (State.reset.withFetchWord 16 0x6A2C).halted = false ∧ (State.reset.withFetchWord 16 0x6A2C).pc.toNat ≤ 0xFFE ∧
    decodeWord (joinBytes ((State.reset.withFetchWord 16 0x6A2C).byteAt 0x200)
      ((State.reset.withFetchWord 16 0x6A2C).byteAt 0x201)) = .ok (.ldImm 0xA 0x2C) := ⟨rfl, rfl, by decide, rfl⟩

theorem witness_CycleGatesInOrder :
    (State.reset.raise .decodeFailure 0).halted = true ∧
    ((State.reset.setPc 0xFFF).halted = false ∧ (State.reset.setPc 0xFFF).pc.toNat > 0xFFE) ∧
    ((State.reset.setPc 0xFFE).halted = false ∧ (State.reset.setPc 0xFFE).pc.toNat ≤ 0xFFE ∧
      decodeWord (joinBytes ((State.reset.setPc 0xFFE).byteAt 0xFFE) ((State.reset.setPc 0xFFE).byteAt 0xFFF)) =
        .error (.unknownFamily0 0)) := ⟨rfl, ⟨rfl, by decide⟩, rfl, by decide, rfl⟩

theorem witness_FetchIsBigEndian : (State.reset.setPc 0xFFE).pc.toNat ≤ 0xFFE := by decide

/-- The same from a machine with another `FONT`. -/
theorem witness_InitializeSetsEverything :
    ((withFont 0xA5).initialized = (withFont 0xA5).initialized ∧ (withFont 0xA5).font ≠ defaultFont) ∧
    State.atReset (Vector.replicate 80 0xA5) = withFont 0xA5 ∧
    State.reset = State.atReset defaultFont ∧ 79 < Config.fontSize ∧ 0x50 ≤ 0x50 := by
  refine ⟨⟨rfl, by decide⟩, rfl, rfl, by decide, by decide⟩

theorem witness_FontBelongsToMachine :
    (∃ t, step (queued (withFont 0xA5) .tick) = .next t) ∧
    (queued (withFont 0xA5) (.reset [])).nextOp = .reset [] ∧
    ∃ t u, step (queued (withFont 0xA5) (.reset [])) = .next t ∧
      exec (.ldF 3) (t.setReg 3 ((0xF#4).setWidth 8)) = .next u ∧ u.index = 75 :=
  ⟨⟨_, rfl⟩, rfl, _, _, rfl, rfl, rfl⟩

/-- The invariant holds at a state that steps, here with a full stack and `PC` at its bound. -/
theorem witness_StepKeepsInvariant :
    Inv (queued (withSp (State.reset.setPc 0x10FE) 16) (.cycle 0 0)) ∧
    ∃ t, step (queued (withSp (State.reset.setPc 0x10FE) 16) (.cycle 0 0)) = .next t ∧ t.halted = true :=
  ⟨⟨rfl, by decide, by decide, fun _ => ⟨rfl, rfl, rfl⟩, fun h => absurd h (by decide)⟩, _, rfl, rfl⟩

theorem witness_EncodeOfDecode : decodeWord 0xFF65 = .ok (.ldVxMem 0xF) := rfl

theorem witness_DecodeFollowsOpcodeMap : decodeWord 0x9120 = .ok (.sneReg 1 2) ∧
    (⟨"SNE_REG", 0xF00F, 0x9000⟩ : OpcodeRow) ∈ opcodeRows ∧
    (⟨"SNE_REG", 0xF00F, 0x9000⟩ : OpcodeRow).accepts 0x9120 = true := ⟨rfl, by decide, rfl⟩

theorem witness_CallPushesOwnAddress : (withSp State.reset 15).sp.val ≠ 16 ∧ (withSp State.reset 16).sp.val = 16 := by
  decide

theorem witness_ReturnGoesAfterCall : (withSp State.reset 16).sp.val ≠ 0 ∧ State.reset.sp.val = 0 := by decide

theorem witness_FlagResult_not_VF : (0xE#4 : Nibble) ≠ 0xF#4 := by decide

theorem witness_SkipResult_both : State.reset.reg 3 = 0 ∧ State.reset.reg 3 ≠ 1 ∧
    (State.reset.setReg 2 1).reg 3 ≠ (State.reset.setReg 2 1).reg 2 := by decide

theorem witness_RandomByteIsMasked : ∃ t, exec (.rnd 3 0x0F) (inputs State.reset 0 0xA7) = .next t ∧ t.reg 3 = 0x07 :=
  ⟨_, rfl, rfl⟩

theorem witness_IndexArithmetic : ∃ t, exec (.ldF 4) (State.reset.setReg 4 0xFF) = .next t ∧ t.index = 0x04FB :=
  ⟨_, rfl, rfl⟩

theorem witness_BcdStoresThreeDigits : Memory.wf State.reset.font State.reset.mem = true ∧
    (State.reset.setIndex 0xFFD).index.toNat + 2 ≤ 0xFFF ∧ (State.reset.setIndex 0xFFE).index.toNat + 2 > 0xFFF := by
  decide

theorem witness_BlockStoreWritesRegisters : Memory.wf State.reset.font State.reset.mem = true ∧
    (State.reset.setIndex 0xFF0).index.toNat + (0xF#4).toNat ≤ 0xFFF ∧
    (State.reset.setIndex 0xFF1).index.toNat + (0xF#4).toNat > 0xFFF := by decide

theorem witness_BlockLoadReadsRegisters : (State.reset.setIndex 0xFFF).index.toNat + (0#4).toNat ≤ 0xFFF ∧
    (State.reset.setIndex 0x1000).index.toNat + (0#4).toNat > 0xFFF := by decide

theorem witness_DrawTogglesSprite_bounds :
    ((0#4).toNat = 0 ∨ (State.reset.setIndex 0x1234).index.toNat + (0#4).toNat - 1 ≤ 0xFFF) ∧
    (State.reset.setIndex 0xFF1).index.toNat + (15#4).toNat - 1 ≤ 0xFFF ∧
    (15#4).toNat > 0 ∧ (State.reset.setIndex 0xFF2).index.toNat + (15#4).toNat - 1 > 0xFFF := by decide

/-- The glyph of digit 0 covers pixel (3, 4), and not (1, 1), where it is drawn at (0, 0); with the pixel set the draw
collides, without it it does not. -/
theorem witness_DrawTogglesSprite_pixels :
    SpriteCovers State.reset 0 1 5 3 4 ∧ ¬ SpriteCovers State.reset 0 1 5 1 1 ∧
    ({ State.reset with fb := Framebuffer.clear.toggle 3 4 } : State).fb.pixel 3 4 = true ∧
    ∀ px py, State.reset.fb.pixel px py = false := by
  refine ⟨⟨4, by decide, 3, by decide, by decide⟩, by unfold SpriteCovers; decide, by decide, fun px py => ?_⟩
  simp [State.reset, State.atReset, Framebuffer.pixel]

theorem witness_DrawTwiceRestores : (0x0#4 : Nibble) ≠ 0xF#4 ∧ (0x1#4 : Nibble) ≠ 0xF#4 ∧
    State.reset.index.toNat + (5#4).toNat - 1 ≤ 0xFFF ∧ SpriteCovers State.reset 0 1 5 0 0 ∧
    ∀ px py, SpriteCovers State.reset 0 1 5 px py → State.reset.fb.pixel px py = false := by
  refine ⟨by decide, by decide, by decide, ⟨0, by decide, 0, by decide, by decide⟩, fun px py _ => ?_⟩
  simp [State.reset, State.atReset, Framebuffer.pixel]

theorem witness_KeySkipsTestOneKey : ((State.reset.setReg 5 15).reg 5).toNat ≤ 15 ∧
    ((State.reset.setReg 5 16).reg 5).toNat > 15 := by decide

theorem witness_WaitForKeyTakesLowest : State.reset.host.keys = 0 ∧ (inputs State.reset 0x8000 0).host.keys ≠ 0 := by
  decide

theorem witness_ProgramCounterTable : ownCondition (.jp 0xFFF) State.reset = none ∧
    ownCondition .ret State.reset = some .stackUnderflow ∧
    ((State.reset.setPc 0x1000).halted = false ∧ (State.reset.setPc 0x1000).fetch = none) ∧
    (State.reset.halted = false ∧ State.reset.fetch = some 0 ∧ decodeWord 0 = .error (.unknownFamily0 0)) :=
  ⟨rfl, rfl, ⟨rfl, rfl⟩, rfl, rfl, rfl⟩

theorem witness_InstructionsRaiseExactlyTheirOwn :
    ownCondition (.ldVxMem 1) (State.reset.setIndex 0xFFF) = some .memoryRange ∧
    ownCondition (.ldVxMem 0) (State.reset.setIndex 0xFFF) = none := by decide

/-- The three ways a running machine halts in a cycle. -/
theorem witness_CycleHaltsOnlyForCause :
    (∃ t, (State.reset.setPc 0xFFF).halted = false ∧ cycle (State.reset.setPc 0xFFF) = .next t ∧ t.halted = true) ∧
    (∃ t, State.reset.halted = false ∧ cycle State.reset = .next t ∧ t.halted = true) ∧
    (∃ t, (State.reset.withFetchWord 16 0x00EE).halted = false ∧
      cycle (State.reset.withFetchWord 16 0x00EE) = .next t ∧ t.halted = true) :=
  ⟨⟨_, rfl, rfl, rfl⟩, ⟨_, rfl, rfl, rfl⟩, ⟨_, rfl, rfl, rfl⟩⟩

theorem witness_HaltIsLeftByResetOnly :
    (∃ t, (queued (State.reset.raise .decodeFailure 0) (.reset [])).halted = true ∧
      step (queued (State.reset.raise .decodeFailure 0) (.reset [])) = .next t ∧ t.halted = false) ∧
    (∃ t, (queued (State.reset.raise .decodeFailure 0) .tick).halted = true ∧
      step (queued (State.reset.raise .decodeFailure 0) .tick) = .next t ∧
      ∀ image, (queued (State.reset.raise .decodeFailure 0) .tick).nextOp ≠ .reset image) :=
  ⟨⟨_, rfl, rfl, rfl⟩, ⟨_, rfl, rfl, fun _ h => by cases h⟩⟩

theorem witness_RegistersWrittenOnlyWhereNamed :
    (∃ t, exec (.ldVxMem 3) State.reset = .next t ∧ writesReg (.ldVxMem 3) 4 = false) ∧
    (∃ t, (0xE#4 : Nibble) ≠ 0xF#4 ∧ exec (.addReg 0xE 0xF) State.reset = .next t) ∧
    (∃ t, ownCondition (.drw 0xF 0xF 1) (State.reset.setIndex 0xFFF) = none ∧
      exec (.drw 0xF 0xF 1) (State.reset.setIndex 0xFFF) = .next t) :=
  ⟨⟨_, rfl, rfl⟩, ⟨_, by decide, rfl⟩, ⟨_, by decide, rfl⟩⟩

/-- `00E0` meets every clause of the statement but the display's, and `1nnn` meets that. -/
theorem witness_EachStateHasItsWriters :
    (∃ t, exec .cls State.reset = .next t) ∧ (∀ nnn x, Instr.cls ≠ .ldI nnn ∧ Instr.cls ≠ .addI x ∧ Instr.cls ≠ .ldF x) ∧
    (∃ t, exec (.jp 0) State.reset = .next t) ∧ (∀ x y n, Instr.jp 0 ≠ .cls ∧ Instr.jp 0 ≠ .drw x y n) :=
  ⟨⟨_, rfl⟩, by simp, ⟨_, rfl⟩, by simp⟩

theorem witness_InputsReadOnlyByTheirInstructions :
    (∃ t, exec (.rnd 0 0xFF) State.reset = .next t) ∧
    (∀ x, Instr.rnd 0 0xFF ≠ .skp x ∧ Instr.rnd 0 0xFF ≠ .sknp x ∧ Instr.rnd 0 0xFF ≠ .ldVxK x) ∧
    (∃ t, exec (.ldVxK 0) State.reset = .next t) ∧ ∀ x kk, Instr.ldVxK 0 ≠ .rnd x kk :=
  ⟨⟨_, rfl⟩, by simp, ⟨_, rfl⟩, by simp⟩

theorem witness_TickDecrementsBothTimers : (queued State.reset .tick).nextOp = .tick := rfl

theorem witness_DisplayConsumeClearsDirty :
    ((queued (State.reset.setScreen Framebuffer.clear) .displayConsume).nextOp = .displayConsume ∧
      (queued (State.reset.setScreen Framebuffer.clear) .displayConsume).dirty = true) ∧
    ((queued State.reset .displayConsume).nextOp = .displayConsume ∧
      (queued State.reset .displayConsume).dirty = false) := ⟨⟨rfl, rfl⟩, rfl, rfl⟩

theorem witness_ResetLoadsImage (b : Byte) :
    (queued State.reset (.reset (List.replicate 3584 b))).nextOp = .reset (List.replicate 3584 b) ∧
    (List.replicate 3584 b).length ≤ 3584 ∧
    (queued State.reset (.reset (List.replicate 3585 b))).nextOp = .reset (List.replicate 3585 b) ∧
    (List.replicate 3585 b).length > 3584 :=
  ⟨rfl, by rw [List.length_replicate], rfl, by rw [List.length_replicate]; decide⟩

theorem witness_StepAlwaysAnswers_not_enabled :
    (queued State.reset .displayConsume).nextOp = .displayConsume ∧ State.reset.dirty = false := ⟨rfl, rfl⟩

theorem witness_StoreIsSeenByFetch : Memory.wf State.reset.font State.reset.mem = true ∧ 1 ≤ (1#4).toNat ∧
    (State.reset.setIndex 0xFFE).index.toNat + (1#4).toNat ≤ 0xFFF ∧
    ∃ t, exec (.ldMemVx 1) (State.reset.setIndex 0xFFE) = .next t := ⟨rfl, by decide, by decide, _, rfl⟩

theorem witness_CallThenReturnComesBack : (withSp State.reset 15).sp.val ≠ 16 := by decide

theorem witness_StoreThenLoadRestores : Memory.wf State.reset.font State.reset.mem = true ∧
    (State.reset.setIndex 0xFF0).index.toNat + (0xF#4).toNat ≤ 0xFFF ∧
    ∃ t u : State, exec (.ldMemVx 0xF) (State.reset.setIndex 0xFF0) = .next t ∧ u.mem = t.mem ∧ u.index = t.index ∧
      u.reg 0 = 0x77 :=
  ⟨rfl, by decide, ((State.reset.setIndex 0xFF0).setMem []).advance,
    State.setReg (State.reset.setIndex 0xFF0) 0 0x77, rfl, rfl, rfl, rfl⟩

end Sys2Proof.Tests
end

section
/-! PROOFS. What an instruction can write (R2), what it reads of the inputs of its cycle (R4), and what a cycle returns
(R6). -/

namespace Sys2Proof.Machine

/-! ### What one instruction can leave -/

/-- An instruction that is attempted leaves its effect, or the fatal condition when it has none. -/
theorem attempt_cases {e : Option State} {c : Cause} {i : Instr} {s t : State} (h : attempt e c i s = .next t) :
    e = some t ∨ (e = none ∧ t = s.raise c (encode i)) := by
  cases e with
  | none => exact .inr ⟨rfl, (Host.Outcome.next.inj h).symm⟩
  | some u => exact .inl (congrArg some (Host.Outcome.next.inj h))

/-- A push that answers has written the stack and its pointer only. -/
theorem push_eq_some {s t : State} {w : Word} (h : s.push w = some t) :
    ∃ st p, t = { s with stack := st, sp := p } := by
  unfold State.push at h
  split at h
  · exact ⟨_, _, (Option.some.inj h).symm⟩
  · cases h

/-- A pop that answers has moved the stack pointer only. -/
theorem pop_eq_some {s : State} {r : Word × State} (h : s.pop = some r) : ∃ p, r.2 = { s with sp := p } := by
  unfold State.pop at h
  split at h
  · cases h
  · exact ⟨_, (congrArg Prod.snd (Option.some.inj h)).symm⟩

/-- A store that answers has written memory only. -/
theorem storeBytes_eq_some {s t : State} {a : Nat} {bs : List Byte} (h : s.storeBytes a bs = some t) :
    ∃ m, t = s.setMem m := by
  obtain ⟨m, -, rfl⟩ := Option.map_eq_some_iff.1 h
  exact ⟨m, rfl⟩

/-- Waiting for a key while none is down changes nothing (R132). -/
theorem exec_ldVxK_of_none {s : State} (h : s.firstKey = none) (x : Nibble) : exec (.ldVxK x) s = .next s := by
  simp [exec, execLdVxK, h]

/-- Waiting for a key while one is down completes with the lowest code (R132). -/
theorem exec_ldVxK_of_some {s : State} {k : Nat} (h : s.firstKey = some k) (x : Nibble) :
    exec (.ldVxK x) s = .next (s.setReg x (BitVec.ofNat 8 k)).advance := by
  simp [exec, execLdVxK, h]

/-- What an instruction `i` can leave of a state `s` (R2): its fatal condition, or, beside `PC`, registers alone or the
one other kind of state whose writers it belongs to. `exec_effect` ties it to the model. -/
inductive Effect (s : State) : Instr → State → Prop
  /-- Any fatal condition: the four writes of R142. -/
  | raised (i : Instr) (c : Cause) : Effect s i (s.raise c (encode i))
  /-- Registers and `PC` only. -/
  | regs (i : Instr) (v : Vector Byte 16) (p : Word) : Effect s i { s with v := v, pc := p }
  /-- `I` (R12). -/
  | index {i : Instr} (hi : ∃ nnn x, i = .ldI nnn ∨ i = .addI x ∨ i = .ldF x) (w p : Word) :
    Effect s i { s with index := w, pc := p }
  /-- The call stack and its pointer (R15, R16). -/
  | stack {i : Instr} (hi : ∃ nnn, i = .call nnn ∨ i = .ret) (st : Vector Word 16) (sp : Fin 17) (p : Word) :
    Effect s i { s with stack := st, sp := sp, pc := p }
  /-- The delay timer (R17). -/
  | delay {i : Instr} (hi : ∃ x, i = .ldDtVx x) (b : Byte) (p : Word) : Effect s i { s with delayTimer := b, pc := p }
  /-- The sound timer (R18). -/
  | sound {i : Instr} (hi : ∃ x, i = .ldStVx x) (b : Byte) (p : Word) : Effect s i { s with soundTimer := b, pc := p }
  /-- Memory (R50). -/
  | mem {i : Instr} (hi : ∃ x, i = .ldB x ∨ i = .ldMemVx x) (m : Memory) (p : Word) :
    Effect s i { s with mem := m, pc := p }
  /-- The framebuffer and `dirty`, with the collision flag among the registers (R19, R20). -/
  | display {i : Instr} (hi : ∃ x y n, i = .cls ∨ i = .drw x y n) (v : Vector Byte 16) (fb : Framebuffer) (p : Word) :
    Effect s i { s with v := v, fb := fb, dirty := true, pc := p }

/-- An attempted instruction leaves what its effect leaves, or its fatal condition. -/
theorem attempt_effect {α : Type} {o : Option α} {f : α → State} {c : Cause} {i : Instr} {s t : State}
    (h : attempt (o.map f) c i s = .next t) (hf : ∀ a, o = some a → Effect s i (f a)) : Effect s i t := by
  obtain he | ⟨-, rfl⟩ := attempt_cases h
  · obtain ⟨a, ha, rfl⟩ := Option.map_eq_some_iff.1 he
    exact hf a ha
  · exact .raised i c

/-- What one instruction can do, said once: every next state of `exec` is one `Effect` allows. -/
theorem exec_effect {i : Instr} {s t : State} (h : exec i s = .next t) : Effect s i t := by
  cases i with
  | jp | seImm | sneImm | seReg | ldImm | addImm | ldReg | or | and | xor | addReg | sub | shr | subn | shl | sneReg
  | jpV0 | rnd | ldVxDt =>
    obtain rfl := Host.Outcome.next.inj h
    exact .regs _ _ _
  | ldVxK x =>
    cases hk : s.firstKey with
    | none =>
      obtain rfl := Host.Outcome.next.inj ((exec_ldVxK_of_none hk x).symm.trans h)
      exact .regs _ s.v s.pc
    | some k =>
      obtain rfl := Host.Outcome.next.inj ((exec_ldVxK_of_some hk x).symm.trans h)
      exact .regs _ _ _
  | skp | sknp | ldVxMem => exact attempt_effect h fun _ _ => .regs _ _ _
  | ldI | addI | ldF =>
    obtain rfl := Host.Outcome.next.inj h
    exact .index (by simp) _ _
  | call =>
    refine attempt_effect h fun u hu => ?_
    obtain ⟨st, sp, rfl⟩ := push_eq_some hu
    exact .stack (by simp) st sp _
  | ret =>
    refine attempt_effect h fun r hr => ?_
    obtain ⟨sp, hsp⟩ := pop_eq_some hr
    rw [hsp]
    exact .stack (by simp) s.stack sp _
  | ldDtVx =>
    obtain rfl := Host.Outcome.next.inj h
    exact .delay (by simp) _ _
  | ldStVx =>
    obtain rfl := Host.Outcome.next.inj h
    exact .sound (by simp) _ _
  | ldB | ldMemVx =>
    refine attempt_effect h fun u hu => ?_
    obtain ⟨m, rfl⟩ := storeBytes_eq_some hu
    exact .mem (by simp) m _
  | cls =>
    obtain rfl := Host.Outcome.next.inj h
    exact .display (by simp) _ _ _
  | drw => exact attempt_effect h fun _ _ => .display (by simp) _ _ _

/-- Settles O40: each piece of state is written in one case of `exec_effect` only, which holds of its writers alone. -/
theorem eachStateHasItsWriters : Obligations.EachStateHasItsWriters := by
  unfold Obligations.EachStateHasItsWriters
  intro i s t h
  cases exec_effect h with
  | raised | regs =>
    exact ⟨fun _ => rfl, fun _ => ⟨rfl, rfl⟩, fun _ => rfl, fun _ => rfl, fun _ => rfl, fun _ => ⟨rfl, rfl⟩, rfl, rfl⟩
  | index hi =>
    obtain ⟨nnn, x, hi⟩ := hi
    exact ⟨fun hn => absurd hi (by simp [hn nnn x]), fun _ => ⟨rfl, rfl⟩, fun _ => rfl, fun _ => rfl, fun _ => rfl,
      fun _ => ⟨rfl, rfl⟩, rfl, rfl⟩
  | stack hi =>
    obtain ⟨nnn, hi⟩ := hi
    exact ⟨fun _ => rfl, fun hn => absurd hi (by simp [hn nnn]), fun _ => rfl, fun _ => rfl, fun _ => rfl,
      fun _ => ⟨rfl, rfl⟩, rfl, rfl⟩
  | delay hi =>
    exact ⟨fun _ => rfl, fun _ => ⟨rfl, rfl⟩, fun hn => absurd hi (not_exists.2 hn), fun _ => rfl, fun _ => rfl,
      fun _ => ⟨rfl, rfl⟩, rfl, rfl⟩
  | sound hi =>
    exact ⟨fun _ => rfl, fun _ => ⟨rfl, rfl⟩, fun _ => rfl, fun hn => absurd hi (not_exists.2 hn), fun _ => rfl,
      fun _ => ⟨rfl, rfl⟩, rfl, rfl⟩
  | mem hi =>
    obtain ⟨x, hi⟩ := hi
    exact ⟨fun _ => rfl, fun _ => ⟨rfl, rfl⟩, fun _ => rfl, fun _ => rfl, fun hn => absurd hi (by simp [hn x]),
      fun _ => ⟨rfl, rfl⟩, rfl, rfl⟩
  | display hi =>
    obtain ⟨x, y, n, hi⟩ := hi
    exact ⟨fun _ => rfl, fun _ => ⟨rfl, rfl⟩, fun _ => rfl, fun _ => rfl, fun _ => rfl,
      fun hn => absurd hi (by simp [hn x y n]), rfl, rfl⟩

/-! ### What an instruction reads of the inputs of its cycle -/

/-- A push does not see the inputs of the cycle. -/
theorem push_present (s : State) (k : Keys) (r : Byte) (w : Word) :
    (s.present k r).push w = (s.push w).map fun t => t.present k r := by
  by_cases hs : s.sp.val < 16
  · rw [push_of_lt hs, push_of_lt (s := s.present k r) hs]
    rfl
  · have hfull : s.sp.val = 16 := by omega
    rw [push_of_full hfull, push_of_full (s := s.present k r) hfull]
    rfl

/-- A pop does not see the inputs of the cycle. -/
theorem pop_present (s : State) (k : Keys) (r : Byte) :
    (s.present k r).pop = s.pop.map fun u => (u.1, u.2.present k r) := by
  by_cases hs : s.sp.val = 0
  · rw [pop_of_empty hs, pop_of_empty (s := s.present k r) hs]
    rfl
  · rw [pop_of_pos hs, pop_of_pos (s := s.present k r) hs]
    rfl

/-- A store does not see the inputs of the cycle. -/
theorem storeBytes_present (s : State) (k : Keys) (r : Byte) (a : Nat) (bs : List Byte) :
    (s.present k r).storeBytes a bs = (s.storeBytes a bs).map fun t => t.present k r := by
  unfold State.storeBytes
  rw [Option.map_map]
  rfl

/-- When the effect of an instruction does not see the inputs, neither does its outcome. -/
theorem attempt_present {e e' : Option State} {c : Cause} {i : Instr} {s t : State} {k : Keys} {r : Byte}
    (h : attempt e c i s = .next t) (he : e' = e.map fun u => u.present k r) :
    attempt e' c i (s.present k r) = .next (t.present k r) := by
  subst he
  obtain rfl | ⟨rfl, rfl⟩ := attempt_cases h
  · rfl
  · rfl

/-- Inputs that agree with the cycle's own for the instructions that read them leave the outcome of an instruction as it
was (R4). -/
theorem exec_present {i : Instr} {s t : State} {k : Keys} {r : Byte} (h : exec i s = .next t)
    (hk : ∀ x, i = .skp x ∨ i = .sknp x ∨ i = .ldVxK x → k = s.host.keys)
    (hr : ∀ x kk, i = .rnd x kk → r = s.host.rnd) :
    exec i (s.present k r) = .next (t.present k r) := by
  cases i with
  | cls | jp | seImm | sneImm | seReg | ldImm | addImm | ldReg | or | and | xor | addReg | sub | shr | subn | shl
  | sneReg | ldI | jpV0 | ldVxDt | ldDtVx | ldStVx | addI | ldF =>
    obtain rfl := Host.Outcome.next.inj h
    rfl
  | rnd x kk =>
    obtain rfl := hr x kk rfl
    obtain rfl := Host.Outcome.next.inj h
    rfl
  | skp x | sknp x =>
    obtain rfl := hk x (by simp)
    exact attempt_present h (by rw [Option.map_map]; rfl)
  | ldVxK x =>
    obtain rfl := hk x (by simp)
    have hsame : (s.present s.host.keys r).firstKey = s.firstKey := rfl
    cases hs : s.firstKey with
    | none =>
      obtain rfl := Host.Outcome.next.inj ((exec_ldVxK_of_none hs x).symm.trans h)
      exact exec_ldVxK_of_none (hsame.trans hs) x
    | some j =>
      obtain rfl := Host.Outcome.next.inj ((exec_ldVxK_of_some hs x).symm.trans h)
      exact exec_ldVxK_of_some (hsame.trans hs) x
  | drw | ldVxMem => exact attempt_present h (by rw [Option.map_map]; rfl)
  | ret => exact attempt_present h (by rw [pop_present, Option.map_map, Option.map_map]; rfl)
  | call => exact attempt_present h (by rw [present_pc, push_present, Option.map_map, Option.map_map]; rfl)
  | ldB | ldMemVx => exact attempt_present h (by rw [storeBytes_present, Option.map_map, Option.map_map]; rfl)

/-- Settles O41: both clauses are `exec_present` with one of the two inputs kept. -/
theorem inputsReadOnlyByTheirInstructions : Obligations.InputsReadOnlyByTheirInstructions := by
  unfold Obligations.InputsReadOnlyByTheirInstructions
  constructor
  · intro i s t k hk h
    exact exec_present h (fun x hx => absurd hx (by simp [hk x])) fun _ _ _ => rfl
  · intro i s t r hr h
    exact exec_present h (fun _ _ => rfl) fun x kk hx => absurd hx (hr x kk)

/-! ### What a cycle returns -/

/-- Every instruction answers a next state: a fatal condition is one too (R142). -/
theorem exec_next (i : Instr) (s : State) : ∃ t, exec i s = .next t := by
  cases i <;> exact ⟨_, rfl⟩

/-- Every cycle answers a next state (R70). -/
theorem cycle_next (s : State) : ∃ t, cycle s = .next t := by
  obtain ⟨-, h⟩ | ⟨-, -, h⟩ | ⟨-, w, e, -, -, h⟩ | ⟨-, w, i, -, -, h⟩ := cycle_cases s
  · exact ⟨s, h⟩
  · exact ⟨_, h⟩
  · exact ⟨_, h⟩
  · rw [h]
    exact exec_next i s

/-- A cycle hands the host `halted` as the cycle leaves it (R6). -/
theorem hostReturn_cycle {s t : State} {k : Keys} {r : Byte} (h : cycle (s.present k r) = .next t) :
    hostReturn (.cycle k r) s = .signal t.halted := by
  simp [hostReturn, perform, h]

/-- Settles O46, by `cycle_next` and `hostReturn_cycle`. -/
theorem cycleReturnsHaltSignal : Obligations.CycleReturnsHaltSignal := by
  unfold Obligations.CycleReturnsHaltSignal
  intro s k r
  obtain ⟨t, ht⟩ := cycle_next (s.present k r)
  exact ⟨t, ht, hostReturn_cycle ht⟩

end Sys2Proof.Machine
end

section
/-! PROOFS. Where each instruction leaves `PC` (R26), which registers it writes (R11, R103), and the invariant of the
machine (R15, R22, R27, R142). -/

namespace Sys2Proof.Machine

/-- An outcome is one next state. -/
theorem eq_of_next {o : Result} {t u : State} (ht : o = .next t) (hu : o = .next u) : t = u :=
  Host.Outcome.next.inj (ht.symm.trans hu)

/-! ### The eight instructions with a condition of their own, when it does not hold -/

/-- The entry a return pops. -/
theorem topEntry_eq (s : State) :
    s.topEntry = s.stack[s.sp.val - 1]'(by have := s.sp.isLt; omega) := by
  have hlt : s.sp.val - 1 < 16 := by have := s.sp.isLt; omega
  simp [State.topEntry, List.getD_eq_getElem?_getD, hlt]

/-- A block of registers has as many bytes as it names (R114). -/
@[simp] theorem length_firstRegs (s : State) (x : Nibble) : (s.firstRegs x).length = blockSize x := by
  have hx := x.isLt
  simp only [State.firstRegs, blockSize, List.length_take, Vector.length_toList]
  omega

/-- A byte has three decimal digits (R113). -/
@[simp] theorem length_bcdDigits (b : Byte) : (bcdDigits b).length = 3 := rfl

/-- A return with a call outstanding (R80). -/
theorem exec_ret_of_pos {s : State} (h : s.sp.val ≠ 0) :
    exec .ret s = .next
      (State.setPc { s with sp := ⟨s.sp.val - 1, by have := s.sp.isLt; omega⟩ } (s.topEntry + 2)) := by
  rw [topEntry_eq, exec, execRet, pop_of_pos h]
  rfl

/-- A call with an entry of the stack left (R82). -/
theorem exec_call_of_lt {s : State} (h : s.sp.val < 16) (nnn : Addr) :
    exec (.call nnn) s = .next (State.setPc
      { s with stack := s.stack.set s.sp.val s.pc h, sp := ⟨s.sp.val + 1, Nat.succ_lt_succ h⟩ } (addrWord nnn)) := by
  rw [exec, execCall, push_of_lt h]
  rfl

/-- A draw whose sprite lies in memory (R121). -/
theorem exec_drw_of_le {s : State} {n : Nibble} (h : n.toNat = 0 ∨ s.index.toNat + n.toNat - 1 ≤ 0xFFF) (x y : Nibble) :
    exec (.drw x y n) s =
      .next (s.afterDraw x y ((List.range n.toNat).map fun j => s.byteAt (s.index.toNat + j))) := by
  have hr : n.toNat = 0 ∨ s.base + n.toNat ≤ Config.memSize := by unfold State.base Config.memSize; omega
  rw [exec, execDrw, loadBytes_of_le hr]
  rfl

/-- A decimal store inside the memory (R113). -/
theorem exec_ldB_of_le {s : State} (h : s.index.toNat + 2 ≤ 0xFFF) (x : Nibble) :
    exec (.ldB x) s =
      .next (s.setMem (s.mem.writeBytes s.font s.index.toNat (bcdDigits (s.reg x)))).advance := by
  have hr : s.base + (bcdDigits (s.reg x)).length ≤ Config.memSize := by
    rw [length_bcdDigits]; unfold State.base Config.memSize; omega
  rw [exec, execLdB, storeBytes_of_le (.inr hr)]
  rfl

/-- A block store inside the memory (R114). -/
theorem exec_ldMemVx_of_le {s : State} {x : Nibble} (h : s.index.toNat + x.toNat ≤ 0xFFF) :
    exec (.ldMemVx x) s = .next (s.setMem (s.mem.writeBytes s.font s.index.toNat (s.firstRegs x))).advance := by
  have hr : s.base + (s.firstRegs x).length ≤ Config.memSize := by
    rw [length_firstRegs]; unfold State.base blockSize Config.memSize; omega
  rw [exec, execLdMemVx, storeBytes_of_le (.inr hr)]
  rfl

/-- A block load inside the memory (R115). -/
theorem exec_ldVxMem_of_le {s : State} {x : Nibble} (h : s.index.toNat + x.toNat ≤ 0xFFF) :
    exec (.ldVxMem x) s =
      .next (s.setRegs ((List.range (blockSize x)).map fun j => s.byteAt (s.index.toNat + j))).advance := by
  have hr : s.base + blockSize x ≤ Config.memSize := by unfold State.base blockSize Config.memSize; omega
  rw [exec, execLdVxMem, loadBytes_of_le (.inr hr)]
  rfl

/-- A skip on a key whose code is in range (R130). -/
theorem exec_skp_of_le {s : State} {x : Nibble} (h : (s.reg x).toNat ≤ 15) :
    exec (.skp x) s = .next (s.skipIf (s.keyDown (s.reg x).toNat)) := by
  rw [exec, execSkp, keyCode_of_le h]
  rfl

/-- A skip on a key that is up, its code in range (R131). -/
theorem exec_sknp_of_le {s : State} {x : Nibble} (h : (s.reg x).toNat ≤ 15) :
    exec (.sknp x) s = .next (s.skipIf (!s.keyDown (s.reg x).toNat)) := by
  rw [exec, execSknp, keyCode_of_le h]
  rfl

/-! ### The program counter -/

/-- An attempted instruction without an effect is its fatal condition. -/
theorem attempt_of_none {e : Option State} (h : e = none) (c : Cause) (i : Instr) (s : State) :
    attempt e c i s = .next (s.raise c (encode i)) := by
  rw [h, attempt_none]

/-- An instruction whose own condition holds raises it, with its own word in the report and none of its effect (R140,
R141, R143). -/
theorem exec_of_ownCondition {i : Instr} {s : State} {c : Cause} (h : ownCondition i s = some c) :
    exec i s = .next (s.raise c (encode i)) := by
  cases i with
  | cls | jp | seImm | sneImm | seReg | ldImm | addImm | ldReg | or | and | xor | addReg | sub | shr | subn | shl
  | sneReg | ldI | jpV0 | rnd | ldVxDt | ldVxK | ldDtVx | ldStVx | addI | ldF => cases h
  | ret =>
    obtain ⟨hs, ⟨⟩⟩ := Option.ite_none_right_eq_some.1 h
    exact attempt_of_none (by rw [pop_of_empty hs]; rfl) _ _ s
  | call nnn =>
    obtain ⟨hs, ⟨⟩⟩ := Option.ite_none_right_eq_some.1 h
    exact attempt_of_none (by rw [push_of_full hs]; rfl) _ _ s
  | drw x y n =>
    obtain ⟨⟨hn, hs⟩, ⟨⟩⟩ := Option.ite_none_right_eq_some.1 h
    have hgt : Config.memSize < s.base + n.toNat := by unfold State.base Config.memSize; omega
    exact attempt_of_none (by rw [loadBytes_of_gt hn hgt]; rfl) _ _ s
  | ldB x =>
    obtain ⟨hs, ⟨⟩⟩ := Option.ite_none_right_eq_some.1 h
    have hgt : Config.memSize < s.base + (bcdDigits (s.reg x)).length := by
      rw [length_bcdDigits]; unfold State.base Config.memSize; omega
    exact attempt_of_none (by rw [storeBytes_of_gt (by simp) hgt]; rfl) _ _ s
  | ldMemVx x =>
    obtain ⟨hs, ⟨⟩⟩ := Option.ite_none_right_eq_some.1 h
    have hgt : Config.memSize < s.base + (s.firstRegs x).length := by
      rw [length_firstRegs]; unfold State.base blockSize Config.memSize; omega
    exact attempt_of_none (by rw [storeBytes_of_gt (by simp [blockSize]) hgt]; rfl) _ _ s
  | ldVxMem x =>
    obtain ⟨hs, ⟨⟩⟩ := Option.ite_none_right_eq_some.1 h
    have hgt : Config.memSize < s.base + blockSize x := by unfold State.base blockSize Config.memSize; omega
    exact attempt_of_none (by rw [loadBytes_of_gt (n := blockSize x) (Nat.succ_pos _) hgt]; rfl) _ _ s
  | skp x | sknp x =>
    obtain ⟨hs, ⟨⟩⟩ := Option.ite_none_right_eq_some.1 h
    exact attempt_of_none (by rw [keyCode_of_gt hs]; rfl) _ _ s

/-- The sum of an address and a byte does not wrap at 16 bits (R87). -/
theorem toNat_addrWord_add_byteWord (nnn : Addr) (b : Byte) :
    (addrWord nnn + byteWord b).toNat = nnn.toNat + b.toNat := by
  have hn := nnn.isLt
  have hb := b.isLt
  simp only [addrWord, byteWord, BitVec.toNat_add, BitVec.toNat_setWidth]
  omega

/-- An instruction whose own condition does not hold leaves `PC` as the table of R26 says. -/
theorem exec_pc_of_none {i : Instr} {s : State} (h : ownCondition i s = none) :
    ∃ t, exec i s = .next t ∧ t.pc = nextPc i s := by
  cases i with
  | cls | jp | ldImm | addImm | ldReg | or | and | xor | addReg | sub | shr | subn | shl | ldI | rnd | ldVxDt | ldDtVx
  | ldStVx | addI | ldF => exact ⟨_, rfl, rfl⟩
  | seImm | sneImm | seReg | sneReg => exact ⟨_, rfl, by simp [nextPc]⟩
  | jpV0 nnn =>
    refine ⟨_, rfl, ?_⟩
    simp only [setPc_pc, nextPc, ← toNat_addrWord_add_byteWord, BitVec.ofNat_toNat, BitVec.setWidth_eq]
  | ldVxK x =>
    cases hk : s.firstKey with
    | none => exact ⟨s, exec_ldVxK_of_none hk x, by simp [nextPc, (firstKey_none s).1 hk]⟩
    | some k =>
      have hne : s.host.keys ≠ 0 := fun h0 => by simp [(firstKey_none s).2 h0] at hk
      exact ⟨_, exec_ldVxK_of_some hk x, (if_neg hne).symm⟩
  | ret => exact ⟨_, exec_ret_of_pos (by simpa [ownCondition] using h), rfl⟩
  | call nnn =>
    have hs : s.sp.val ≠ 16 := by simpa [ownCondition] using h
    exact ⟨_, exec_call_of_lt (by omega) nnn, rfl⟩
  | drw x y n =>
    have hs : n.toNat > 0 → s.index.toNat + n.toNat - 1 ≤ 0xFFF := by simpa [ownCondition] using h
    exact ⟨_, exec_drw_of_le (by omega) x y, rfl⟩
  | ldB x => exact ⟨_, exec_ldB_of_le (by simpa [ownCondition] using h) x, rfl⟩
  | ldMemVx x => exact ⟨_, exec_ldMemVx_of_le (by simpa [ownCondition] using h), rfl⟩
  | ldVxMem x => exact ⟨_, exec_ldVxMem_of_le (by simpa [ownCondition] using h), rfl⟩
  | skp x => exact ⟨_, exec_skp_of_le (by simpa [ownCondition] using h), rfl⟩
  | sknp x =>
    exact ⟨_, exec_sknp_of_le (by simpa [ownCondition] using h), by simp [nextPc, State.keyDown]⟩

/-- Settles O34: an instruction completes with `PC` from the table (`exec_pc_of_none`) or is `raise`, as a fetch fault and
a decode failure are; `raise` leaves `PC`. -/
theorem programCounterTable : Obligations.ProgramCounterTable := by
  unfold Obligations.ProgramCounterTable
  refine ⟨fun i s h => exec_pc_of_none h, fun i s c h => ⟨_, exec_of_ownCondition h, rfl⟩, fun s hh hf => ?_⟩
  obtain ⟨h, -⟩ | ⟨-, -, h⟩ | ⟨-, w, e, -, -, h⟩ | ⟨-, w, i, hw, hd, -⟩ := cycle_cases s
  · simp [hh] at h
  · exact ⟨_, h, rfl⟩
  · exact ⟨_, h, rfl⟩
  · obtain hn | ⟨w', e, hw', he⟩ := hf
    · simp [hw] at hn
    · obtain rfl : w = w' := Option.some.inj (hw.symm.trans hw')
      simp [hd] at he

/-! ### The general registers -/

/-- What holds of the fatal condition and of every effect holds of the next state of an attempted instruction. -/
theorem attempt_induction {P : State → Prop} {α : Type} {o : Option α} {f : α → State} {c : Cause} {i : Instr}
    {s t : State} (h : attempt (o.map f) c i s = .next t) (hraise : P (s.raise c (encode i)))
    (heffect : ∀ a, o = some a → P (f a)) : P t := by
  obtain he | ⟨-, rfl⟩ := attempt_cases h
  · obtain ⟨a, ha, rfl⟩ := Option.map_eq_some_iff.1 he
    exact heffect a ha
  · exact hraise

/-- A register that no effect of an attempted instruction changes is kept: the fatal condition keeps all of them. -/
theorem attempt_reg {α : Type} {o : Option α} {f : α → State} {c : Cause} {i : Instr} {s t : State} {r : Nibble}
    (h : attempt (o.map f) c i s = .next t) (heffect : ∀ a, o = some a → (f a).reg r = s.reg r) : t.reg r = s.reg r :=
  attempt_induction (P := fun u => u.reg r = s.reg r) h rfl heffect

/-- A block load that answers has as many bytes as were asked for (R115). -/
theorem length_of_loadBytes {s : State} {a n : Nat} {bs : List Byte} (h : s.loadBytes a n = some bs) :
    bs.length = n := by
  obtain ⟨-, rfl⟩ := load_eq_some.1 h
  simp

/-- A register a flag writer does not name: neither its destination nor `VF` (R103). -/
theorem flagThenReg_reg_of_ne {x r : Nibble} (hx : x ≠ r) (hf : 0xF#4 ≠ r) (s : State) (flag : Bool) (b : Byte) :
    (s.flagThenReg flag x b).reg r = s.reg r := by
  simp [State.flagThenReg, hx, hf]

/-- `VF` after a flag writer whose destination is another register (R103). -/
theorem flagThenReg_flag {x : Nibble} (hx : x ≠ 0xF#4) (s : State) (flag : Bool) (b : Byte) :
    (s.flagThenReg flag x b).reg 0xF#4 = flagByte flag := by
  simp [State.flagThenReg, hx]

/-- A flag is 0 or 1 (R11). -/
theorem flagByte_eq (c : Bool) : flagByte c = 0 ∨ flagByte c = 1 := by
  cases c
  · exact .inl rfl
  · exact .inr rfl

/-- An instruction changes no register but those it names as destination, the block it loads, and the flag (R11). -/
theorem exec_reg_of_not_writesReg {i : Instr} {s t : State} {r : Nibble} (h : exec i s = .next t)
    (hw : writesReg i r = false) : t.reg r = s.reg r := by
  cases i with
  | cls | jp | seImm | sneImm | seReg | sneReg | ldI | jpV0 | ldDtVx | ldStVx | addI | ldF =>
    obtain rfl := Host.Outcome.next.inj h
    rfl
  | ldImm x | addImm x | ldReg x | or x | and x | xor x | rnd x | ldVxDt x =>
    have hx : x ≠ r := fun hx => by simp [writesReg, hx] at hw
    obtain rfl := Host.Outcome.next.inj h
    simp [hx]
  | addReg x | sub x | shr x | subn x | shl x =>
    simp only [writesReg, Bool.or_eq_false_iff, beq_eq_false_iff_ne] at hw
    obtain rfl := Host.Outcome.next.inj h
    exact flagThenReg_reg_of_ne hw.1.symm hw.2.symm s _ _
  | ldVxK x =>
    have hx : x ≠ r := fun hx => by simp [writesReg, hx] at hw
    cases hk : s.firstKey with
    | none =>
      obtain rfl := eq_of_next (exec_ldVxK_of_none hk x) h
      rfl
    | some k =>
      obtain rfl := eq_of_next (exec_ldVxK_of_some hk x) h
      simp [hx]
  | skp | sknp => exact attempt_reg h fun _ _ => rfl
  | call =>
    refine attempt_reg h fun u hu => ?_
    obtain ⟨st, sp, rfl⟩ := push_eq_some hu
    rfl
  | ret =>
    refine attempt_reg h fun u hu => ?_
    obtain ⟨sp, hsp⟩ := pop_eq_some hu
    rw [hsp]
    rfl
  | ldB | ldMemVx =>
    refine attempt_reg h fun u hu => ?_
    obtain ⟨m, rfl⟩ := storeBytes_eq_some hu
    rfl
  | drw =>
    have hf : 0xF#4 ≠ r := fun hf => by simp [writesReg, hf] at hw
    exact attempt_reg h fun _ _ => by simp [State.afterDraw, hf]
  | ldVxMem x =>
    have hx : x.toNat < r.toNat := by simpa [writesReg] using hw
    refine attempt_reg h fun bs hbs => ?_
    have hlen : bs.length ≤ r.toNat := (length_of_loadBytes hbs).trans_le hx
    simp [hlen]

/-- Settles O39: the frame is `exec_reg_of_not_writesReg`; what a flag writer leaves in `VF` is a `flagByte`. -/
theorem registersWrittenOnlyWhereNamed : Obligations.RegistersWrittenOnlyWhereNamed := by
  unfold Obligations.RegistersWrittenOnlyWhereNamed
  refine ⟨fun i s t r h hw => exec_reg_of_not_writesReg h hw, fun x y s t hx h => ?_, fun x y n s t hc h => ?_⟩
  · obtain h | h | h | h | h := h
    all_goals
      obtain rfl := Host.Outcome.next.inj h
      rw [flagThenReg_flag hx]
      exact flagByte_eq _
  · have hs : n.toNat > 0 → s.index.toNat + n.toNat - 1 ≤ 0xFFF := by simpa [ownCondition] using hc
    obtain rfl := eq_of_next (exec_drw_of_le (by omega) x y) h
    simpa [State.afterDraw] using flagByte_eq _

/-! ### The invariant -/

/-- The part of `Inv` about the stack: every entry is an address a word was fetched from (R15). -/
def StackFetched (s : State) : Prop := ∀ k : Fin 16, s.stack[k.val].toNat ≤ 0xFFE

/-- Every fatal condition has a code 1 to 5 (R140). -/
theorem causeCode_range (c : Cause) : 1 ≤ (causeCode c).toNat ∧ (causeCode c).toNat ≤ 5 := by
  cases c <;> decide

/-- A fatal condition writes a report that agrees with `halted` (R142). -/
theorem raise_reportWf (s : State) (c : Cause) (w : Word) : ReportWf (s.raise c w) :=
  ⟨(nomatch ·), fun _ => ⟨(causeCode_range c).1, (causeCode_range c).2, rfl⟩⟩

/-- A fatal condition keeps the invariant. -/
theorem raise_inv {s : State} (hs : Inv s) (c : Cause) (w : Word) : Inv (s.raise c w) := by
  obtain ⟨hmem, hpc, hstack, -⟩ := hs
  exact ⟨hmem, hpc, hstack, raise_reportWf s c w⟩

/-- An instruction of a running machine leaves a report that agrees with `halted`. -/
theorem exec_reportWf {i : Instr} {s t : State} (hs : ReportWf s) (hrun : s.halted = false) (h : exec i s = .next t) :
    ReportWf t := by
  cases exec_effect h with
  | raised c => exact raise_reportWf s c _
  | regs | index | stack | delay | sound | mem | display =>
    exact ⟨hs.1, fun hhalt => absurd (hrun.symm.trans hhalt) Bool.false_ne_true⟩

/-- An instruction keeps the canonical form of memory. -/
theorem exec_mem_wf {i : Instr} {s t : State} (hs : Memory.wf s.font s.mem = true) (h : exec i s = .next t) :
    Memory.wf t.font t.mem = true := by
  cases exec_effect h with
  | raised | regs | index | stack | delay | sound | display => exact hs
  | mem hi =>
    obtain ⟨x, rfl | rfl⟩ := hi
    all_goals
      exact attempt_induction (P := fun u => Memory.wf u.font u.mem = true) h hs fun _ hu =>
        (storeBytes_cases hs hu).2.1

/-- A push of an address a word was fetched from keeps the stack one of such addresses. -/
theorem push_stackFetched {s t : State} {w : Word} (hs : StackFetched s) (hw : w.toNat ≤ 0xFFE)
    (h : s.push w = some t) : StackFetched t := by
  by_cases hlt : s.sp.val < 16
  · obtain rfl := Option.some.inj ((push_of_lt hlt w).symm.trans h)
    intro k
    simp only [Vector.getElem_set]
    split
    · exact hw
    · exact hs k
  · simp [push_of_full (show s.sp.val = 16 by omega)] at h

/-- An instruction at an address a word was fetched from keeps the stack one of such addresses: only a call writes an
entry, and it writes its own address (R82). -/
theorem exec_stackFetched {i : Instr} {s t : State} (hs : StackFetched s) (hpc : s.pc.toNat ≤ 0xFFE)
    (h : exec i s = .next t) : StackFetched t := by
  cases exec_effect h with
  | raised | regs | index | delay | sound | mem | display => exact hs
  | stack hi =>
    obtain ⟨nnn, rfl | rfl⟩ := hi
    · exact attempt_induction (P := StackFetched) h hs fun u hu =>
        (push_stackFetched hs hpc hu : StackFetched u)
    · refine attempt_induction (P := StackFetched) h hs fun u hu => ?_
      obtain ⟨sp, hsp⟩ := pop_eq_some hu
      rw [hsp]
      exact hs

/-- The default of R26 from an address a word was fetched from. -/
theorem toNat_advance_le {w : Word} (h : w.toNat ≤ 0xFFE) : (w + 2).toNat ≤ 0x10FE := by
  bv_omega

/-- A skip from an address a word was fetched from. -/
theorem toNat_skip_le {w : Word} (h : w.toNat ≤ 0xFFE) (p : Prop) [Decidable p] :
    (if p then w + 4 else w + 2).toNat ≤ 0x10FE := by
  split
  · bv_omega
  · exact toNat_advance_le h

/-- A jump goes to an address of 12 bits (R81). -/
theorem toNat_jump_le (nnn : Addr) : (nnn.setWidth 16 : Word).toNat ≤ 0x10FE := by
  have := nnn.isLt
  rw [BitVec.toNat_setWidth]
  omega

/-- No instruction that completes goes beyond 0x10FE, which is `nnn + V0` at its greatest (R27, R87). -/
theorem nextPc_le (i : Instr) {s : State} (hstack : StackFetched s) (hpc : s.pc.toNat ≤ 0xFFE) :
    (nextPc i s).toNat ≤ 0x10FE := by
  cases i with
  | cls | ldImm | addImm | ldReg | or | and | xor | addReg | sub | shr | subn | shl | ldI | rnd | drw | ldVxDt | ldDtVx
  | ldStVx | addI | ldF | ldB | ldMemVx | ldVxMem => exact toNat_advance_le hpc
  | seImm | sneImm | seReg | sneReg | skp | sknp => exact toNat_skip_le hpc _
  | jp nnn | call nnn => exact toNat_jump_le nnn
  | jpV0 nnn =>
    have hn := nnn.isLt
    have hv := (s.reg 0).isLt
    simp only [nextPc, BitVec.toNat_ofNat]
    omega
  | ret =>
    have htop := hstack ⟨s.sp.val - 1, by have := s.sp.isLt; omega⟩
    rw [nextPc, topEntry_eq]
    exact toNat_advance_le htop
  | ldVxK =>
    simp only [nextPc]
    split
    · omega
    · exact toNat_advance_le hpc

/-- An instruction leaves `PC` at most 0x10FE. -/
theorem exec_pc_le {i : Instr} {s t : State} (hstack : StackFetched s) (hpc : s.pc.toNat ≤ 0xFFE)
    (h : exec i s = .next t) : t.pc.toNat ≤ 0x10FE := by
  cases hc : ownCondition i s with
  | none =>
    obtain ⟨u, hu, hnext⟩ := exec_pc_of_none hc
    obtain rfl := eq_of_next hu h
    rw [hnext]
    exact nextPc_le i hstack hpc
  | some c =>
    obtain rfl := eq_of_next (exec_of_ownCondition hc) h
    exact hpc.trans (by decide)

/-- An instruction of a running machine, at an address a word was fetched from, keeps the invariant. -/
theorem exec_inv {i : Instr} {s t : State} (hs : Inv s) (hrun : s.halted = false) (hpc : s.pc.toNat ≤ 0xFFE)
    (h : exec i s = .next t) : Inv t := by
  obtain ⟨hmem, -, hstack, hreport⟩ := hs
  exact ⟨exec_mem_wf hmem h, exec_pc_le hstack hpc h, exec_stackFetched hstack hpc h, exec_reportWf hreport hrun h⟩

/-- A word is fetched only at 0xFFE or below (R60). -/
theorem pc_le_of_fetch {s : State} {w : Word} (h : s.fetch = some w) : s.pc.toNat ≤ 0xFFE := by
  by_contra hgt
  simp [fetch_of_gt (Nat.lt_of_not_le hgt)] at h

/-- A cycle keeps the invariant: it does nothing, raises, or runs an instruction at an address it fetched from. -/
theorem cycle_inv {s t : State} (hs : Inv s) (h : cycle s = .next t) : Inv t := by
  obtain ⟨-, hc⟩ | ⟨-, -, hc⟩ | ⟨-, w, e, -, -, hc⟩ | ⟨hrun, w, i, hw, -, hc⟩ := cycle_cases s
  · obtain rfl := eq_of_next hc h
    exact hs
  · obtain rfl := eq_of_next hc h
    exact raise_inv hs _ _
  · obtain rfl := eq_of_next hc h
    exact raise_inv hs _ _
  · exact exec_inv hs hrun (pc_le_of_fetch hw) (hc.symm.trans h)

/-- The machine right after `Initialize` satisfies the invariant, whatever its `FONT` (R170). -/
theorem atReset_inv (f : Font) : Inv (State.atReset f) := by
  refine ⟨rfl, (by decide : (0x200#16).toNat ≤ 0x10FE), fun k => ?_, fun _ => ⟨rfl, rfl, rfl⟩, (nomatch ·)⟩
  simp [State.atReset]

/-- A loaded image leaves memory in its canonical form (R172). -/
theorem image_mem_wf (f : Font) {image : List Byte} (h : image.length ≤ Config.romMax) :
    Memory.wf f (Memory.writeBytes f [] Config.progBase image) = true := by
  refine wf_writeBytes image rfl ?_
  unfold Config.romMax at h
  unfold Config.progBase Config.memSize
  omega

/-- A reset leaves the invariant, whatever came before and whatever the image (R171, R173). -/
theorem resetWith_inv (s : State) (image : List Byte) : Inv (s.resetWith image) := by
  obtain ⟨hmem, hpc, hstack, hreport⟩ := atReset_inv s.font
  rw [resetWith_eq]
  refine ⟨?_, hpc, hstack, hreport⟩
  dsimp only
  split
  · exact hmem
  · exact image_mem_wf s.font (by omega)

/-- Taking the host's next operation keeps the invariant, which does not speak of the host. -/
theorem opTaken_inv {s : State} (hs : Inv s) : Inv s.opTaken := by
  rw [opTaken_eq]
  exact hs

/-- Settles O7, by `atReset_inv`. -/
theorem resetSatisfiesInvariant : Obligations.ResetSatisfiesInvariant := by
  unfold Obligations.ResetSatisfiesInvariant
  exact atReset_inv defaultFont

/-- Settles O8, operation by operation of the host: a cycle by `cycle_inv`, a reset by `resetWith_inv`; the other two
write nothing the invariant speaks of. -/
theorem stepKeepsInvariant : Obligations.StepKeepsInvariant := by
  unfold Obligations.StepKeepsInvariant
  intro s t hs h
  have htaken : Inv s.opTaken := opTaken_inv hs
  obtain ⟨k, r, -, hc⟩ | ⟨-, hc⟩ | ⟨-, -, hc⟩ | ⟨-, -, hc⟩ | ⟨image, -, hc⟩ := step_cases s
  · have hpresent : Inv (s.opTaken.present k r) := htaken
    exact cycle_inv hpresent (hc.symm.trans h)
  · obtain rfl := eq_of_next hc h
    exact htaken
  · obtain rfl := eq_of_next hc h
    exact htaken
  · cases hc.symm.trans h
  · obtain rfl := eq_of_next hc h
    exact resetWith_inv _ _

end Sys2Proof.Machine
end

section
/-! PROOFS. The bytes of a fetched word (R42), a store seen by the next fetch (R53), and the parameter `FONT` (R47). -/

namespace Sys2Proof

/-- The byte at the lower address is the high byte of the word (R42). -/
@[simp] theorem highByte_joinBytes (hi lo : Byte) : highByte (joinBytes hi lo) = hi :=
  BitVec.extractLsb'_append_eq_left

/-- The byte at the higher address is the low byte of the word (R42). -/
@[simp] theorem lowByte_joinBytes (hi lo : Byte) : lowByte (joinBytes hi lo) = lo :=
  BitVec.extractLsb'_append_eq_right

end Sys2Proof

namespace Sys2Proof.Machine

/-- Settles O4: the fetched word joins the bytes at `PC` and `PC + 1`. -/
theorem fetchIsBigEndian : Obligations.FetchIsBigEndian := by
  unfold Obligations.FetchIsBigEndian
  intro s h
  exact ⟨_, fetch_of_le h, highByte_joinBytes _ _, lowByte_joinBytes _ _⟩

/-! ### A block store seen by the next fetch -/

/-- The registers of the block `V0` to `Vx`, in their order (R114). -/
theorem getElem?_firstRegs {x r : Nibble} (h : r.toNat ≤ x.toNat) (s : State) :
    (s.firstRegs x)[r.toNat]? = some (s.reg r) := by
  have hr : r.toNat < s.v.toList.length := by rw [Vector.length_toList]; exact r.isLt
  have hblock : r.toNat < blockSize x := Nat.lt_succ_of_le h
  rw [State.firstRegs, List.getElem?_take_of_lt hblock, List.getElem?_eq_getElem hr,
    Vector.getElem_toList]
  rfl

/-- Each register of the block is the byte at its own offset from `I` once `Fx55` has completed (R114). -/
theorem byteAt_of_exec_ldMemVx {x r : Nibble} {s t : State} (hw : Memory.wf s.font s.mem = true)
    (hx : s.index.toNat + x.toNat ≤ 0xFFF) (h : exec (.ldMemVx x) s = .next t) (hr : r.toNat ≤ x.toNat) :
    t.byteAt (s.index.toNat + r.toNat) = s.reg r := by
  have hfit : s.index.toNat + (s.firstRegs x).length ≤ Config.memSize := by
    rw [length_firstRegs]; unfold blockSize Config.memSize; omega
  obtain rfl := eq_of_next (exec_ldMemVx_of_le hx) h
  rw [advance_byteAt, setMem_byteAt, read_writeBytes _ hw hfit, if_pos (Nat.le_add_right _ _),
    Nat.add_sub_cancel_left, getElem?_firstRegs hr, Option.getD_some]

/-- Settles O48: the fetch at `I` joins the bytes at `I` and `I + 1`, which are `V0` and `V1` by
`byteAt_of_exec_ldMemVx`. -/
theorem storeIsSeenByFetch : Obligations.StoreIsSeenByFetch := by
  unfold Obligations.StoreIsSeenByFetch
  intro x s t hw h1 hx h
  have hpc : (t.setPc s.index).pc.toNat ≤ 0xFFE := by rw [setPc_pc]; omega
  have hv0 : t.byteAt s.index.toNat = s.reg 0 := byteAt_of_exec_ldMemVx hw hx h (r := 0) (Nat.zero_le _)
  have hv1 : t.byteAt (s.index.toNat + 1) = s.reg 1 := byteAt_of_exec_ldMemVx hw hx h (r := 1) h1
  rw [fetch_of_le hpc, setPc_pc, setPc_byteAt, setPc_byteAt, hv0, hv1]

/-! ### The parameter `FONT` -/

/-- No instruction changes `FONT`. -/
theorem exec_font {i : Instr} {s t : State} (h : exec i s = .next t) : t.font = s.font := by
  obtain ⟨-, -, -, -, -, -, -, hfont⟩ := eachStateHasItsWriters i s t h
  exact hfont

/-- No cycle changes `FONT`: it does nothing, raises, or runs an instruction. -/
theorem cycle_font {s t : State} (h : cycle s = .next t) : t.font = s.font := by
  obtain ⟨-, hc⟩ | ⟨-, -, hc⟩ | ⟨-, w, e, -, -, hc⟩ | ⟨-, w, i, -, -, hc⟩ := cycle_cases s
  · rw [eq_of_next h hc]
  · rw [eq_of_next h hc, raise_font]
  · rw [eq_of_next h hc, raise_font]
  · exact exec_font (hc.symm.trans h)

/-- No operation of the host changes `FONT` (R47). -/
theorem step_font {s t : State} (h : step s = .next t) : t.font = s.font := by
  obtain ⟨k, r, -, hc⟩ | ⟨-, hc⟩ | ⟨-, -, hc⟩ | ⟨-, -, hc⟩ | ⟨image, -, hc⟩ := step_cases s
  · rw [cycle_font (hc.symm.trans h), present_font, opTaken_font]
  · rw [eq_of_next h hc, tick_font, opTaken_font]
  · rw [eq_of_next h hc, consumed_font, opTaken_font]
  · cases hc.symm.trans h
  · rw [eq_of_next h hc, resetWith_font, opTaken_font]

/-- A step whose operation is a `Reset` (R171). -/
theorem step_of_reset {s : State} {image : List Byte} (h : s.nextOp = .reset image) :
    step s = .next (s.opTaken.resetWith image) := by
  simp [step, h, perform]

/-- An image loads at 0x200 and above: below it memory is as `Initialize` left it, whatever the image (R48, R172). -/
theorem resetWith_byteAt_of_lt {a : Nat} (h : a < Config.progBase) (s : State) (image : List Byte) :
    (s.resetWith image).byteAt a = Memory.initial s.font a := by
  rw [resetWith_eq]
  dsimp only [State.byteAt, State.atReset]
  split
  · rfl
  · next himage =>
    have hfit : Config.progBase + image.length ≤ Config.memSize := by
      unfold Config.romMax at himage
      unfold Config.progBase Config.memSize
      omega
    rw [read_writeBytes image rfl hfit, if_neg (Nat.not_le_of_lt h)]
    rfl

/-- `Initialize` puts the bytes of `FONT` at the addresses of the font (R41, R47). -/
theorem initial_of_lt {a : Nat} (h : a < Config.fontSize) (f : Font) : Memory.initial f a = f[a] := dif_pos h

/-- The address `Fx29` gives for a digit does not wrap (R112). -/
theorem toNat_glyphAddress (d : Nibble) : (5 * byteWord (d.setWidth 8)).toNat = 5 * d.toNat := by
  have hd := d.isLt
  have hbyte : (byteWord (d.setWidth 8)).toNat = d.toNat := by
    simp only [byteWord, BitVec.toNat_setWidth]
    omega
  rw [BitVec.toNat_mul, hbyte]
  exact Nat.mod_eq_of_lt (by omega : 5 * d.toNat < 2 ^ 16)

/-- Settles O6: `step_font`; and the 80 bytes of the font lie below 0x200, where a `Reset` leaves `FONT`
(`resetWith_byteAt_of_lt`) and `Fx29` points (`toNat_glyphAddress`). -/
theorem fontBelongsToMachine : Obligations.FontBelongsToMachine := by
  unfold Obligations.FontBelongsToMachine
  refine ⟨fun s t h => step_font h, fun s image x d t u hop ht hu j => ?_⟩
  have hfont : 5 * d.toNat + j.val < Config.fontSize := by
    have := d.isLt
    unfold Config.fontSize
    omega
  obtain rfl := eq_of_next (step_of_reset hop) ht
  obtain rfl := Host.Outcome.next.inj hu
  rw [advance_index, setIndex_index, setReg_reg, if_pos rfl, toNat_glyphAddress, advance_byteAt, setIndex_byteAt,
    setReg_byteAt, resetWith_byteAt_of_lt (hfont.trans (by decide)), opTaken_font, initial_of_lt hfont]

end Sys2Proof.Machine
end

section
/-! PROOFS. Decoding and encoding (spec/30_encoding.md): each undoes the other, the decoder agrees with the opcode map of
R63, its failures family by family (R69), and the step that runs a decoded instruction (R70). -/

namespace Sys2Proof

/-! ### Decoding what was encoded -/

/-- The word of an instruction decodes to it: first level on the family, second level on the sub-opcode of its format. -/
theorem decodeWord_encode (i : Instr) : decodeWord (encode i) = .ok i := by
  cases i with
  | cls | ret => rfl
  | jp | call | seImm | sneImm | seReg | ldImm | addImm | sneReg | ldI | jpV0 | rnd | drw => simp [encode, decodeWord]
  | ldReg | or | and | xor | addReg | sub | shr | subn | shl => simp [encode, decodeWord, decodeFamily8]
  | skp | sknp => simp [encode, decodeWord, decodeFamilyE]
  | ldVxDt | ldVxK | ldDtVx | ldStVx | addI | ldF | ldB | ldMemVx | ldVxMem => simp [encode, decodeWord, decodeFamilyF]

/-- The two bytes of an instruction decode to it and leave the bytes after them (R60). -/
theorem decode_encodeBytes (i : Instr) (rest : List Byte) : decode (encodeBytes i ++ rest) = .ok (i, rest) := by
  rw [encodeBytes, List.cons_append, List.cons_append, decode_pair, joinBytes_bytes, decodeWord_encode]
  rfl

/-- Settles O9: the word by `decodeWord_encode`, the bytes by `decode_encodeBytes`. -/
theorem decodeOfEncode : Obligations.DecodeOfEncode := by
  unfold Obligations.DecodeOfEncode
  exact fun i => ⟨decodeWord_encode i, decode_encodeBytes i⟩

/-! ### Encoding what was decoded -/

/-- A word of a known family in format `A`. -/
theorem wordA_eq {w : Word} {f : Nibble} (hf : opFamily w = f) : wordA f (fieldNnn w) = w := by
  rw [← hf, wordA_fields]

/-- A word of a known family and low byte in format `XK`. -/
theorem wordXK_eq {w : Word} {f : Nibble} {k : Byte} (hf : opFamily w = f) (hk : fieldKk w = k) :
    wordXK f (fieldX w) k = w := by
  rw [← hf, ← hk, wordXK_fields]

/-- A word of a known family and low nibble in format `XYN`. -/
theorem wordXYN_eq {w : Word} {f n : Nibble} (hf : opFamily w = f) (hn : fieldN w = n) :
    wordXYN f (fieldX w) (fieldY w) n = w := by
  rw [← hf, ← hn, wordXYN_fields]

/-- What family 0 decodes to encodes to the word. -/
theorem encode_of_decodeFamily0 {w : Word} {i : Instr} (h : decodeFamily0 w = .ok i) : encode i = w := by
  unfold decodeFamily0 at h
  split_ifs at h with hcls hret
  · exact Except.ok.inj h ▸ hcls.symm
  · exact Except.ok.inj h ▸ hret.symm

/-- What family 8 decodes to encodes to the word. -/
theorem encode_of_decodeFamily8 {w : Word} {i : Instr} (hf : opFamily w = 0x8#4) (h : decodeFamily8 w = .ok i) :
    encode i = w := by
  unfold decodeFamily8 at h
  split at h
  case h_10 => cases h
  all_goals next hn => exact Except.ok.inj h ▸ wordXYN_eq hf hn

/-- What family E decodes to encodes to the word. -/
theorem encode_of_decodeFamilyE {w : Word} {i : Instr} (hf : opFamily w = 0xE#4) (h : decodeFamilyE w = .ok i) :
    encode i = w := by
  unfold decodeFamilyE at h
  split at h
  case h_3 => cases h
  all_goals next hk => exact Except.ok.inj h ▸ wordXK_eq hf hk

/-- What family F decodes to encodes to the word. -/
theorem encode_of_decodeFamilyF {w : Word} {i : Instr} (hf : opFamily w = 0xF#4) (h : decodeFamilyF w = .ok i) :
    encode i = w := by
  unfold decodeFamilyF at h
  split at h
  case h_10 => cases h
  all_goals next hk => exact Except.ok.inj h ▸ wordXK_eq hf hk

/-- What a word decodes to encodes to that word: its family and its sub-opcode are those of the encoding, and the other
fields are the operands. -/
theorem encode_of_decodeWord {w : Word} {i : Instr} (h : decodeWord w = .ok i) : encode i = w := by
  unfold decodeWord at h
  split at h
  case h_1 => exact encode_of_decodeFamily0 h
  case h_2 hf | h_3 hf | h_11 hf | h_12 hf => exact Except.ok.inj h ▸ wordA_eq hf
  case h_4 hf | h_5 hf | h_7 hf | h_8 hf | h_13 hf => exact Except.ok.inj h ▸ wordXK_eq hf rfl
  case h_6 hf | h_10 hf =>
    split_ifs at h with hn
    exact Except.ok.inj h ▸ wordXYN_eq hf hn
  case h_9 hf => exact encode_of_decodeFamily8 hf h
  case h_14 hf => exact Except.ok.inj h ▸ wordXYN_eq hf rfl
  case h_15 hf => exact encode_of_decodeFamilyE hf h
  case h_16 =>
    have hf : opFamily w = 0xF#4 := by simp only [imp_false] at *; bv_omega
    exact encode_of_decodeFamilyF hf h

/-- Settles O10, by `encode_of_decodeWord`. -/
theorem encodeOfDecode : Obligations.EncodeOfDecode := by
  unfold Obligations.EncodeOfDecode
  exact fun w i => encode_of_decodeWord

/-! ### The opcode map -/

/-- The mask of a whole word takes it to itself. -/
theorem eq_of_mask {w p : Word} (h : w &&& 0xFFFF = p) : p = w :=
  h.symm.trans BitVec.and_allOnes

/-- The family of a word that its family's mask takes to a pattern. -/
theorem opFamily_of_mask {w : Word} {f : Nibble} (h : w &&& 0xF000 = wordA f 0) : opFamily w = f := by
  have hm : wordA (opFamily w) 0 = wordA f 0 := by rw [← wordA_mask _ (fieldNnn w), wordA_fields, h]
  simpa using congrArg opFamily hm

/-- A word that the mask of format `X` takes to a pattern. -/
theorem wordX_of_mask {w : Word} {f : Nibble} {k : Byte} (h : w &&& 0xF0FF = wordXK f 0 k) :
    wordXK f (fieldX w) k = w := by
  have hm : wordXK (opFamily w) 0 (fieldKk w) = wordXK f 0 k := by rw [← wordX_mask _ (fieldX w), wordXK_fields, h]
  exact wordXK_eq (by simpa using congrArg opFamily hm) (by simpa using congrArg fieldKk hm)

/-- A word that the mask of format `XY` takes to a pattern. -/
theorem wordXY_of_mask {w : Word} {f n : Nibble} (h : w &&& 0xF00F = wordXYN f 0 0 n) :
    wordXYN f (fieldX w) (fieldY w) n = w := by
  have hm : wordXYN (opFamily w) 0 0 (fieldN w) = wordXYN f 0 0 n := by
    rw [← wordXY_mask _ (fieldX w) (fieldY w), wordXYN_fields, h]
  exact wordXYN_eq (by simpa using congrArg opFamily hm) (by simpa using congrArg fieldN hm)

/-- A word that passes the row's mask and pattern is the encoding of an instruction with the row's mnemonic: with the
sub-opcode fixed by the pattern, the fields the mask leaves free are its operands. -/
def RowNamesWord (w : Word) (r : OpcodeRow) : Prop :=
  w &&& r.mask = r.pattern → ∃ i : Instr, encode i = w ∧ r.mnemonic = i.mnemonic

/-- Families 0 to 7. -/
theorem rowNamesWord_low (w : Word) : ∀ r ∈ opcodeRowsLow, RowNamesWord w r := by
  simp only [opcodeRowsLow, List.forall_mem_cons]
  exact ⟨
    fun h => ⟨.cls, eq_of_mask h, rfl⟩,
    fun h => ⟨.ret, eq_of_mask h, rfl⟩,
    fun h => ⟨.jp (fieldNnn w), wordA_eq (opFamily_of_mask h), rfl⟩,
    fun h => ⟨.call (fieldNnn w), wordA_eq (opFamily_of_mask h), rfl⟩,
    fun h => ⟨.seImm (fieldX w) (fieldKk w), wordXK_eq (opFamily_of_mask h) rfl, rfl⟩,
    fun h => ⟨.sneImm (fieldX w) (fieldKk w), wordXK_eq (opFamily_of_mask h) rfl, rfl⟩,
    fun h => ⟨.seReg (fieldX w) (fieldY w), wordXY_of_mask h, rfl⟩,
    fun h => ⟨.ldImm (fieldX w) (fieldKk w), wordXK_eq (opFamily_of_mask h) rfl, rfl⟩,
    fun h => ⟨.addImm (fieldX w) (fieldKk w), wordXK_eq (opFamily_of_mask h) rfl, rfl⟩,
    List.forall_mem_nil _⟩

/-- Family 8. -/
theorem rowNamesWord_alu (w : Word) : ∀ r ∈ opcodeRowsAlu, RowNamesWord w r := by
  simp only [opcodeRowsAlu, List.forall_mem_cons]
  exact ⟨
    fun h => ⟨.ldReg (fieldX w) (fieldY w), wordXY_of_mask h, rfl⟩,
    fun h => ⟨.or (fieldX w) (fieldY w), wordXY_of_mask h, rfl⟩,
    fun h => ⟨.and (fieldX w) (fieldY w), wordXY_of_mask h, rfl⟩,
    fun h => ⟨.xor (fieldX w) (fieldY w), wordXY_of_mask h, rfl⟩,
    fun h => ⟨.addReg (fieldX w) (fieldY w), wordXY_of_mask h, rfl⟩,
    fun h => ⟨.sub (fieldX w) (fieldY w), wordXY_of_mask h, rfl⟩,
    fun h => ⟨.shr (fieldX w) (fieldY w), wordXY_of_mask h, rfl⟩,
    fun h => ⟨.subn (fieldX w) (fieldY w), wordXY_of_mask h, rfl⟩,
    fun h => ⟨.shl (fieldX w) (fieldY w), wordXY_of_mask h, rfl⟩,
    List.forall_mem_nil _⟩

/-- Families 9 to E. -/
theorem rowNamesWord_high (w : Word) : ∀ r ∈ opcodeRowsHigh, RowNamesWord w r := by
  simp only [opcodeRowsHigh, List.forall_mem_cons]
  exact ⟨
    fun h => ⟨.sneReg (fieldX w) (fieldY w), wordXY_of_mask h, rfl⟩,
    fun h => ⟨.ldI (fieldNnn w), wordA_eq (opFamily_of_mask h), rfl⟩,
    fun h => ⟨.jpV0 (fieldNnn w), wordA_eq (opFamily_of_mask h), rfl⟩,
    fun h => ⟨.rnd (fieldX w) (fieldKk w), wordXK_eq (opFamily_of_mask h) rfl, rfl⟩,
    fun h => ⟨.drw (fieldX w) (fieldY w) (fieldN w), wordXYN_eq (opFamily_of_mask h) rfl, rfl⟩,
    fun h => ⟨.skp (fieldX w), wordX_of_mask h, rfl⟩,
    fun h => ⟨.sknp (fieldX w), wordX_of_mask h, rfl⟩,
    List.forall_mem_nil _⟩

/-- Family F. -/
theorem rowNamesWord_F (w : Word) : ∀ r ∈ opcodeRowsF, RowNamesWord w r := by
  simp only [opcodeRowsF, List.forall_mem_cons]
  exact ⟨
    fun h => ⟨.ldVxDt (fieldX w), wordX_of_mask h, rfl⟩,
    fun h => ⟨.ldVxK (fieldX w), wordX_of_mask h, rfl⟩,
    fun h => ⟨.ldDtVx (fieldX w), wordX_of_mask h, rfl⟩,
    fun h => ⟨.ldStVx (fieldX w), wordX_of_mask h, rfl⟩,
    fun h => ⟨.addI (fieldX w), wordX_of_mask h, rfl⟩,
    fun h => ⟨.ldF (fieldX w), wordX_of_mask h, rfl⟩,
    fun h => ⟨.ldB (fieldX w), wordX_of_mask h, rfl⟩,
    fun h => ⟨.ldMemVx (fieldX w), wordX_of_mask h, rfl⟩,
    fun h => ⟨.ldVxMem (fieldX w), wordX_of_mask h, rfl⟩,
    List.forall_mem_nil _⟩

/-- A word a row accepts decodes to an instruction with the row's mnemonic. -/
theorem decodeWord_of_accepts {w : Word} {r : OpcodeRow} (hr : r ∈ opcodeRows) (h : r.accepts w = true) :
    ∃ i, decodeWord w = .ok i ∧ r.mnemonic = i.mnemonic := by
  have hnames : RowNamesWord w r := by
    simp only [opcodeRows, List.mem_append] at hr
    obtain ((hr | hr) | hr) | hr := hr
    · exact rowNamesWord_low w r hr
    · exact rowNamesWord_alu w r hr
    · exact rowNamesWord_high w r hr
    · exact rowNamesWord_F w r hr
  obtain ⟨i, rfl, hm⟩ := hnames (eq_of_beq h)
  exact ⟨i, decodeWord_encode i, hm⟩

/-- The rows of the opcode map have different mnemonics. -/
theorem opcodeRows_mnemonic_nodup : (opcodeRows.map OpcodeRow.mnemonic).Nodup := by decide

open Laws.InOpcodeMap in
/-- The word of every instruction is accepted by the row of its mnemonic. -/
theorem encode_inOpcodeMap (i : Instr) : Statement i :=
  match i with
  | .cls => cls | .ret => ret | .jp nnn => jp nnn | .call nnn => call nnn
  | .seImm x kk => seImm x kk | .sneImm x kk => sneImm x kk | .seReg x y => seReg x y
  | .ldImm x kk => ldImm x kk | .addImm x kk => addImm x kk
  | .ldReg x y => ldReg x y | .or x y => or x y | .and x y => and x y | .xor x y => Laws.InOpcodeMap.xor x y
  | .addReg x y => addReg x y | .sub x y => sub x y | .shr x y => shr x y | .subn x y => subn x y | .shl x y => shl x y
  | .sneReg x y => sneReg x y | .ldI nnn => ldI nnn | .jpV0 nnn => jpV0 nnn
  | .rnd x kk => rnd x kk | .drw x y n => drw x y n | .skp x => skp x | .sknp x => sknp x
  | .ldVxDt x => ldVxDt x | .ldVxK x => ldVxK x | .ldDtVx x => ldDtVx x | .ldStVx x => ldStVx x | .addI x => addI x
  | .ldF x => ldF x | .ldB x => ldB x | .ldMemVx x => ldMemVx x | .ldVxMem x => ldVxMem x

/-- A word is legal exactly when a row accepts it (R63). -/
theorem legalWord_iff (w : Word) : legalWord w = true ↔ ∃ r ∈ opcodeRows, r.accepts w = true := List.any_eq_true

/-- Settles O11: a row that accepts a word names the instruction it decodes to (`decodeWord_of_accepts`), so two rows that
accept it have one mnemonic and are one row; and the word of an instruction is in the map (`encode_inOpcodeMap`). -/
theorem decodeFollowsOpcodeMap : Obligations.DecodeFollowsOpcodeMap := by
  unfold Obligations.DecodeFollowsOpcodeMap
  refine ⟨fun w => ⟨fun h => ?_, fun ⟨i, h⟩ => ?_⟩, fun w i h r hr ha => ?_, fun w r hr q hq har haq => ?_⟩
  · obtain ⟨r, hr, ha⟩ := (legalWord_iff w).1 h
    obtain ⟨i, hi, -⟩ := decodeWord_of_accepts hr ha
    exact ⟨i, hi⟩
  · obtain ⟨r, hr, -, ha⟩ := encode_inOpcodeMap i
    exact (legalWord_iff w).2 ⟨r, hr, encode_of_decodeWord h ▸ ha⟩
  · obtain ⟨j, hj, hm⟩ := decodeWord_of_accepts hr ha
    obtain rfl : i = j := Except.ok.inj (h.symm.trans hj)
    exact hm
  · obtain ⟨i, hi, hri⟩ := decodeWord_of_accepts hr har
    obtain ⟨j, hj, hqj⟩ := decodeWord_of_accepts hq haq
    obtain rfl : i = j := Except.ok.inj (hi.symm.trans hj)
    exact List.inj_on_of_nodup_map opcodeRows_mnemonic_nodup hr hq (hri.trans hqj.symm)

/-! ### The decode failures -/

/-- The family as a number (R61). -/
theorem toNat_opFamily (w : Word) : (opFamily w).toNat = w.toNat / 4096 := by
  have hw := w.isLt
  simp only [opFamily, BitVec.extractLsb'_toNat, Nat.shiftRight_eq_div_pow]
  omega

/-- The low nibble as a number (R61). -/
theorem toNat_fieldN (w : Word) : (fieldN w).toNat = w.toNat % 16 := by
  simp [fieldN]

/-- The low byte as a number (R61). -/
theorem toNat_fieldKk (w : Word) : (fieldKk w).toNat = w.toNat % 256 := by
  simp [fieldKk]

/-- Family 0 fails on every word but its two (R64). -/
theorem decodeFamily0_error_iff (w : Word) : (∃ e, decodeFamily0 w = .error e) ↔ w ≠ 0x00E0 ∧ w ≠ 0x00EE := by
  unfold decodeFamily0
  split_ifs with hcls hret
  · simp [hcls]
  · simp [hret]
  · simp [hcls, hret]

/-- Families 5 and 9 fail on a low nibble that is not 0 (R68). -/
theorem ite_fieldN_error_iff (w : Word) (i : Instr) (r : Reject) :
    (∃ e, (if fieldN w = 0 then Except.ok i else .error r) = .error e) ↔ (fieldN w).toNat ≠ 0 := by
  split_ifs with hn
  · simp [hn]
  · simpa [← BitVec.toNat_inj] using hn

/-- Family 8 fails on the seven low nibbles without an instruction (R65). -/
theorem decodeFamily8_error_iff (w : Word) : (∃ e, decodeFamily8 w = .error e) ↔
    (fieldN w).toNat ∈ [8, 9, 10, 11, 12, 13, 15] := by
  unfold decodeFamily8
  split
  case h_10 =>
    refine iff_of_true ⟨_, rfl⟩ ?_
    simp only [imp_false, List.mem_cons, List.not_mem_nil, or_false] at *
    bv_omega
  all_goals next hn => simp [hn]

/-- Family E fails on every low byte but its two (R66). -/
theorem decodeFamilyE_error_iff (w : Word) : (∃ e, decodeFamilyE w = .error e) ↔
    (fieldKk w).toNat ∉ [0x9E, 0xA1] := by
  unfold decodeFamilyE
  split
  case h_3 =>
    refine iff_of_true ⟨_, rfl⟩ ?_
    simp only [imp_false, List.mem_cons, List.not_mem_nil, or_false] at *
    bv_omega
  all_goals next hk => simp [hk]

/-- Family F fails on every low byte but its nine (R67). -/
theorem decodeFamilyF_error_iff (w : Word) : (∃ e, decodeFamilyF w = .error e) ↔
    (fieldKk w).toNat ∉ [0x07, 0x0A, 0x15, 0x18, 0x1E, 0x29, 0x33, 0x55, 0x65] := by
  unfold decodeFamilyF
  split
  case h_10 =>
    refine iff_of_true ⟨_, rfl⟩ ?_
    simp only [imp_false, List.mem_cons, List.not_mem_nil, or_false] at *
    bv_omega
  all_goals next hk => simp [hk]

/-- Settles O12, by the second level of each family; a family without one never fails. -/
theorem decodeFailuresByFamily : Obligations.DecodeFailuresByFamily := by
  unfold Obligations.DecodeFailuresByFamily
  intro w
  rw [← toNat_opFamily, ← toNat_fieldN, ← toNat_fieldKk]
  unfold decodeWord
  split
  case h_1 hf => simp [hf, decodeFamily0_error_iff]
  case h_6 hf | h_10 hf =>
    rw [ite_fieldN_error_iff]
    simp [hf]
  case h_9 hf => simp [hf, decodeFamily8_error_iff]
  case h_15 hf => simp [hf, decodeFamilyE_error_iff]
  case h_16 =>
    have hf : opFamily w = 0xF#4 := by simp only [imp_false] at *; bv_omega
    simp [hf, decodeFamilyF_error_iff]
  all_goals next hf => simp [hf]

end Sys2Proof

namespace Sys2Proof.Machine

/-! ### The step that runs a decoded instruction -/

/-- A step whose operation is a `Cycle` (R4). -/
theorem step_of_cycle {s : State} {k : Keys} {r : Byte} (h : s.nextOp = .cycle k r) :
    step s = cycle (s.opTaken.present k r) := by
  simp [step, h, perform]

/-- A cycle of a running machine whose two bytes at `PC` decode (R70). -/
theorem cycle_of_decodeWord {s : State} {i : Instr} (hrun : s.halted = false) (hpc : s.pc.toNat ≤ 0xFFE)
    (hd : decodeWord (joinBytes (s.byteAt s.pc.toNat) (s.byteAt (s.pc.toNat + 1))) = .ok i) : cycle s = exec i s := by
  simp [cycle, hrun, fetch_of_le hpc, decodeAndExecute, hd]

/-- Settles O2: the step is the cycle (`step_of_cycle`), the cycle is the instruction (`cycle_of_decodeWord`), and neither
taking the operation nor presenting its inputs changes what the cycle looks at. -/
theorem stepRunsDecodedInstruction : Obligations.StepRunsDecodedInstruction := by
  unfold Obligations.StepRunsDecodedInstruction
  intro s k r i hop hrun hpc hd
  rw [step_of_cycle hop]
  exact cycle_of_decodeWord (by simpa using hrun) (by simpa using hpc) (by simpa using hd)

end Sys2Proof.Machine
end

section
/-! PROOFS. Control transfer and the register skips (spec/40_flow.md R80 to R87): where `PC` goes, what the call stack holds,
and the frame of each. -/

namespace Sys2Proof.Machine

/-! ### The frames -/

/-- A write of `PC` is within the frame of a jump. -/
theorem setPc_onlyPc (s : State) (w : Word) : OnlyPc s (s.setPc w) :=
  ⟨fun _ => rfl, rfl, ⟨rfl, rfl⟩, ⟨rfl, rfl⟩, fun _ => rfl, ⟨rfl, rfl⟩, ⟨rfl, rfl, rfl, rfl⟩, rfl, rfl⟩

/-- Writes of the stack, its pointer and `PC` are within the frame of a call or a return. -/
theorem setPc_onlyStack (s : State) (st : Vector Word 16) (sp : Fin 17) (w : Word) :
    OnlyStack s (State.setPc { s with stack := st, sp := sp } w) :=
  ⟨fun _ => rfl, rfl, ⟨rfl, rfl⟩, fun _ => rfl, ⟨rfl, rfl⟩, ⟨rfl, rfl, rfl, rfl⟩, rfl, rfl⟩

/-! ### Jumps -/

/-- Settles O13: the jump is a write of `PC`. -/
theorem jumpGoesToAddress : Obligations.JumpGoesToAddress := by
  unfold Obligations.JumpGoesToAddress
  intro nnn s
  exact ⟨_, rfl, rfl, setPc_onlyPc s _⟩

/-- Settles O16: the jump is a write of `PC`, and its sum does not wrap (`toNat_addrWord_add_byteWord`). -/
theorem jumpWithOffsetAddsV0 : Obligations.JumpWithOffsetAddsV0 := by
  unfold Obligations.JumpWithOffsetAddsV0
  intro nnn s
  exact ⟨_, rfl, toNat_addrWord_add_byteWord nnn (s.reg 0), setPc_onlyPc s _⟩

/-! ### Skips -/

/-- An instruction whose meaning is `skipIf` of a test is a skip on the condition the test decides (R89). -/
theorem skipResult_of_skipIf {i : Instr} {test : State → Bool} {cond : State → Prop}
    (hi : ∀ s, exec i s = .next (s.skipIf (test s))) (htest : ∀ s, test s = true ↔ cond s) : SkipResult i cond := by
  intro s
  refine ⟨_, hi s, fun hc => ?_, fun hc => ?_, setPc_onlyPc s _⟩
  · rw [skipIf_pc, if_pos ((htest s).2 hc)]
  · rw [skipIf_pc, if_neg (mt (htest s).1 hc)]

/-- Settles O17, by `skipResult_of_skipIf`: each test decides the condition of its instruction. -/
theorem skipsAdvanceByFourOrTwo : Obligations.SkipsAdvanceByFourOrTwo := by
  unfold Obligations.SkipsAdvanceByFourOrTwo
  intro x y kk
  exact ⟨skipResult_of_skipIf (fun _ => rfl) fun _ => beq_iff_eq,
    skipResult_of_skipIf (fun _ => rfl) fun _ => bne_iff_ne,
    skipResult_of_skipIf (fun _ => rfl) fun _ => beq_iff_eq,
    skipResult_of_skipIf (fun _ => rfl) fun _ => bne_iff_ne⟩

/-! ### Calls and returns -/

/-- Settles O14: with an entry left the call is `exec_call_of_lt`, and with none it is its own condition. -/
theorem callPushesOwnAddress : Obligations.CallPushesOwnAddress := by
  unfold Obligations.CallPushesOwnAddress
  intro nnn s
  refine ⟨fun hs => ?_, fun hs => exec_of_ownCondition (if_pos hs)⟩
  have hlt : s.sp.val < 16 := by omega
  refine ⟨_, exec_call_of_lt hlt nnn, fun k => ?_, rfl, rfl, setPc_onlyStack s _ _ _⟩
  rw [setPc_stack, Vector.getElem_set]
  exact if_congr eq_comm rfl rfl

/-- The entry a return pops is the one just below the stack pointer. -/
theorem topEntry_of_succ {s : State} {k : Fin 16} (h : k.val + 1 = s.sp.val) : s.topEntry = s.stack[k.val] := by
  simp [topEntry_eq, ← h]

/-- Settles O15: with a call outstanding the return is `exec_ret_of_pos`, and with none it is its own condition. -/
theorem returnGoesAfterCall : Obligations.ReturnGoesAfterCall := by
  unfold Obligations.ReturnGoesAfterCall
  intro s
  refine ⟨fun hs => ?_, fun hs => exec_of_ownCondition (if_pos hs)⟩
  refine ⟨_, exec_ret_of_pos hs, fun k hk => ?_, Nat.succ_pred hs, rfl, setPc_onlyStack s s.stack _ _⟩
  rw [setPc_pc, topEntry_of_succ hk]

/-- Settles O49: the return pops the entry that the call wrote, by `returnGoesAfterCall` after
`callPushesOwnAddress`. -/
theorem callThenReturnComesBack : Obligations.CallThenReturnComesBack := by
  unfold Obligations.CallThenReturnComesBack
  intro nnn s hs
  have hlt : s.sp.val < 16 := by omega
  obtain ⟨t, hcall, hstack, htsp, -, hregs, hindex, -, hmem, -⟩ := (callPushesOwnAddress nnn s).1 hs
  obtain ⟨u, hret, hpc, husp, -, hregs', hindex', -, hmem', -⟩ := (returnGoesAfterCall t).1 (by omega)
  have hown : t.stack[s.sp.val] = s.pc := by simpa using hstack ⟨s.sp.val, hlt⟩
  refine ⟨t, u, hcall, hret, ?_, ?_, fun r => (hregs' r).trans (hregs r), hindex'.trans hindex,
    fun a => (hmem' a).trans (hmem a)⟩
  · rw [hpc ⟨s.sp.val, hlt⟩ htsp.symm, hown]
  · exact Fin.ext (by omega)

end Sys2Proof.Machine
end

section
/-! PROOFS. Register load, arithmetic, logic, shift and random (spec/41_alu.md R90 to R101): the value of the
destination, the flag in `VF`, and the frame of each. -/

namespace Sys2Proof.Machine

/-! ### One register written -/

/-- A state in which the register file and `PC` alone are new is within the frame of the registers that changed. -/
theorem onlyRegs_of_sameRegsBut {P : Nibble → Prop} {s : State} {v : Vector Byte 16} {p : Word}
    (h : SameRegsBut P s { s with v := v, pc := p }) : OnlyRegs P s { s with v := v, pc := p } :=
  ⟨h, rfl, ⟨rfl, rfl⟩, ⟨rfl, rfl⟩, fun _ => rfl, ⟨rfl, rfl⟩, ⟨rfl, rfl, rfl, rfl⟩, rfl, rfl⟩

/-- A write of one register and `PC` is within the frame of its destination. -/
theorem setReg_advance_onlyRegs (s : State) (x : Nibble) (b : Byte) : OnlyRegs (· = x) s (s.setReg x b).advance :=
  onlyRegs_of_sameRegsBut fun _ hr => (setReg_reg s x _ b).trans (if_neg (Ne.symm hr))

/-- An instruction whose meaning is a write of one register and the advance of `PC`. -/
theorem regResult_of_setReg {i : Instr} {x : Nibble} {value : State → Byte}
    (hi : ∀ s, exec i s = .next (s.setReg x (value s)).advance) : RegResult i x value :=
  fun s => ⟨_, hi s, by simp, rfl, setReg_advance_onlyRegs s x _⟩

/-- The 8-bit sum is the exact sum modulo 256 (R91, R96). -/
theorem add_eq_ofNat_mod (a b : Byte) : a + b = BitVec.ofNat 8 ((a.toNat + b.toNat) % 256) := by
  bv_omega

/-- Settles O18: both are writes of one register (`regResult_of_setReg`), the second of a sum modulo 256. -/
theorem immediateLoadsAndAdds : Obligations.ImmediateLoadsAndAdds := by
  unfold Obligations.ImmediateLoadsAndAdds
  intro x kk
  refine ⟨regResult_of_setReg fun _ => rfl, regResult_of_setReg fun s => ?_⟩
  rw [← add_eq_ofNat_mod]
  rfl

/-- Settles O19: all four are writes of one register, `regResult_of_setReg`. -/
theorem movesAndLogic : Obligations.MovesAndLogic := by
  unfold Obligations.MovesAndLogic
  intro x y
  exact ⟨regResult_of_setReg fun _ => rfl, regResult_of_setReg fun _ => rfl, regResult_of_setReg fun _ => rfl,
    regResult_of_setReg fun _ => rfl⟩

/-- Settles O22: a write of one register with the masked byte, which has no bit outside the mask. -/
theorem randomByteIsMasked : Obligations.RandomByteIsMasked := by
  unfold Obligations.RandomByteIsMasked
  intro x kk
  have hresult : RegResult (.rnd x kk) x (fun s => s.host.rnd &&& kk) := regResult_of_setReg fun _ => rfl
  refine ⟨hresult, fun s t h => ?_⟩
  obtain ⟨u, hu, hreg, -⟩ := hresult s
  rw [eq_of_next h hu, hreg, BitVec.and_assoc, BitVec.and_not_self]
  exact BitVec.and_zero

/-! ### A flag and then a register -/

/-- The destination of a flag writer holds the result, `VF` included: the result is written last (R103). -/
theorem flagThenReg_result (s : State) (flag : Bool) (x : Nibble) (b : Byte) : (s.flagThenReg flag x b).reg x = b := by
  simp [State.flagThenReg]

/-- A flag writer changes its destination, `VF` and `PC` only. -/
theorem flagThenReg_onlyRegs (s : State) (flag : Bool) (x : Nibble) (b : Byte) :
    OnlyRegs (fun r => r = x ∨ r = 0xF#4) s (s.flagThenReg flag x b) := by
  refine onlyRegs_of_sameRegsBut fun r hr => ?_
  obtain ⟨hx, hf⟩ := not_or.1 hr
  exact flagThenReg_reg_of_ne (Ne.symm hx) (Ne.symm hf) s flag b

/-- An instruction whose meaning is `flagThenReg` of a condition and a result, once the two are shown to be the flag and
the value of the rule. -/
theorem flagResult_of_flagThenReg {i : Instr} {x : Nibble} {cond : State → Bool} {result flag value : State → Byte}
    (hi : ∀ s, exec i s = .next (s.flagThenReg (cond s) x (result s))) (hflag : ∀ s, flagByte (cond s) = flag s)
    (hvalue : ∀ s, result s = value s) : FlagResult i x flag value := by
  intro s
  refine ⟨_, hi s, ?_, fun hx => ?_, rfl, flagThenReg_onlyRegs s _ x _⟩
  · rw [flagThenReg_result, hvalue]
  · rw [flagThenReg_flag hx, hflag]

/-! ### Sums and differences -/

/-- The flag of a decidable condition. -/
theorem flagByte_decide (p : Prop) [Decidable p] : flagByte (decide p) = if p then 1 else 0 := by
  simp [flagByte]

/-- The 8-bit difference is the difference modulo 256 (R97, R99). -/
theorem sub_eq_ofNat_mod (a b : Byte) : a - b = BitVec.ofNat 8 ((a.toNat + 256 - b.toNat) % 256) := by
  bv_omega

/-- Settles O20, by `flagResult_of_flagThenReg`: the flags are decided conditions, the results are modulo 256. -/
theorem addAndSubtractWriteFlag : Obligations.AddAndSubtractWriteFlag := by
  unfold Obligations.AddAndSubtractWriteFlag
  intro x y
  exact ⟨flagResult_of_flagThenReg (fun _ => rfl) (fun _ => flagByte_decide _) fun _ => add_eq_ofNat_mod _ _,
    flagResult_of_flagThenReg (fun _ => rfl) (fun _ => flagByte_decide _) fun _ => sub_eq_ofNat_mod _ _,
    flagResult_of_flagThenReg (fun _ => rfl) (fun _ => flagByte_decide _) fun _ => sub_eq_ofNat_mod _ _⟩

/-! ### Shifts -/

/-- The bit shifted out at the bottom is the remainder by 2 (R98). -/
theorem flagByte_shiftedOutLow (a : Byte) : flagByte (shiftedOutLow a) = BitVec.ofNat 8 (a.toNat % 2) := by
  obtain h | h := Nat.mod_two_eq_zero_or_one a.toNat
  all_goals simp [flagByte, shiftedOutLow, BitVec.getLsbD, Nat.testBit_zero, h]

/-- The bit shifted out at the top is the quotient by 128 (R100). -/
theorem flagByte_shiftedOutHigh (a : Byte) : flagByte (shiftedOutHigh a) = BitVec.ofNat 8 (a.toNat / 128) := by
  have h : a.toNat / 128 = 0 ∨ a.toNat / 128 = 1 := by omega
  obtain h | h := h
  all_goals simp [flagByte, shiftedOutHigh, BitVec.getLsbD, Nat.testBit_eq_decide_div_mod_eq, h]

/-- The shift one place down is the half (R98). -/
theorem ushiftRight_one_eq_ofNat (a : Byte) : a >>> 1 = BitVec.ofNat 8 (a.toNat / 2) := by
  bv_omega

/-- The shift one place up is the double modulo 256 (R100). -/
theorem shiftLeft_one_eq_ofNat (a : Byte) : a <<< 1 = BitVec.ofNat 8 ((a.toNat * 2) % 256) := by
  bv_omega

/-- Settles O21, by `flagResult_of_flagThenReg`: the bit shifted out and the shifted byte, each as a number. -/
theorem shiftsWriteFlag : Obligations.ShiftsWriteFlag := by
  unfold Obligations.ShiftsWriteFlag
  intro x y
  constructor
  · exact flagResult_of_flagThenReg (fun _ => rfl) (fun _ => flagByte_shiftedOutLow _) fun _ => ushiftRight_one_eq_ofNat _
  · exact flagResult_of_flagThenReg (fun _ => rfl) (fun _ => flagByte_shiftedOutHigh _) fun _ => shiftLeft_one_eq_ofNat _

end Sys2Proof.Machine
end

section
/-! PROOFS. Index register and memory instructions (spec/42_index_memory.md R110 to R116): what each writes to `I`, to
memory or to the registers, the frame of each, and the round trip of a block. -/

namespace Sys2Proof.Machine

/-! ### Stores -/

/-- A byte of the block reads as stored, at its own offset (R43). -/
theorem storeBytes_byteAt {s t : State} {a j : Nat} {bs : List Byte} (hw : Memory.wf s.font s.mem = true)
    (h : s.storeBytes a bs = some t) (hj : j < bs.length) : t.byteAt (a + j) = bs[j] := by
  obtain ⟨-, -, hread⟩ := storeBytes_cases hw h
  rw [hread, if_pos (Nat.le_add_right a j), Nat.add_sub_cancel_left, List.getElem?_eq_getElem hj,
    Option.getD_some]

/-- A store and the advance of `PC` are within the frame of the bytes stored. -/
theorem storeBytes_advance_onlyStores {s t : State} {a : Nat} {bs : List Byte} (hw : Memory.wf s.font s.mem = true)
    (h : s.storeBytes a bs = some t) : OnlyStores a bs.length s t.advance := by
  obtain ⟨-, -, hread⟩ := storeBytes_cases hw h
  have houtside : SameMemoryOutside a bs.length s t.advance := by
    intro b hb
    rw [advance_byteAt, hread]
    split_ifs with hab
    · have hlen : bs.length ≤ b - a := by omega
      rw [List.getElem?_eq_none hlen, Option.getD_none]
    · rfl
  obtain ⟨m, rfl⟩ := storeBytes_eq_some h
  exact ⟨fun _ => rfl, rfl, ⟨rfl, rfl⟩, ⟨rfl, rfl⟩, houtside, ⟨rfl, rfl⟩, ⟨rfl, rfl, rfl, rfl⟩, rfl, rfl⟩

/-- The decimal digits as numbers: each fits its byte (R113). -/
theorem toNat_bcdDigits (b : Byte) : (bcdDigits b)[0].toNat = b.toNat / 100 ∧
    (bcdDigits b)[1].toNat = b.toNat / 10 % 10 ∧ (bcdDigits b)[2].toNat = b.toNat % 10 := by
  have hb := b.isLt
  simp only [bcdDigits, List.getElem_cons_zero, List.getElem_cons_succ, BitVec.toNat_ofNat]
  omega

/-- Settles O25: in range the store is `exec_ldB_of_le`, each digit by `storeBytes_byteAt` at its own offset; out of range
it is the instruction's own condition. -/
theorem bcdStoresThreeDigits : Obligations.BcdStoresThreeDigits := by
  unfold Obligations.BcdStoresThreeDigits
  intro x s hw
  refine ⟨fun hr => ?_, fun hr => exec_of_ownCondition (if_pos hr)⟩
  have hfit : s.index.toNat + (bcdDigits (s.reg x)).length ≤ Config.memSize := by
    rw [length_bcdDigits]; unfold Config.memSize; omega
  have hstore := storeBytes_of_le (s := s) (.inr hfit)
  obtain ⟨hhundreds, htens, hones⟩ := toNat_bcdDigits (s.reg x)
  refine ⟨_, exec_ldB_of_le hr x, ?_, ?_, ?_, rfl, storeBytes_advance_onlyStores hw hstore⟩
  · exact (congrArg BitVec.toNat (storeBytes_byteAt (j := 0) hw hstore (by simp))).trans hhundreds
  · exact (congrArg BitVec.toNat (storeBytes_byteAt (j := 1) hw hstore (by simp))).trans htens
  · exact (congrArg BitVec.toNat (storeBytes_byteAt (j := 2) hw hstore (by simp))).trans hones

/-- Settles O26: in range the store is `exec_ldMemVx_of_le`, each register by `byteAt_of_exec_ldMemVx`; out of range it is
the instruction's own condition. -/
theorem blockStoreWritesRegisters : Obligations.BlockStoreWritesRegisters := by
  unfold Obligations.BlockStoreWritesRegisters
  intro x s hw
  refine ⟨fun hr => ?_, fun hr => exec_of_ownCondition (if_pos hr)⟩
  have hfit : s.index.toNat + (s.firstRegs x).length ≤ Config.memSize := by
    rw [length_firstRegs]; unfold blockSize Config.memSize; omega
  have hframe := storeBytes_advance_onlyStores hw (storeBytes_of_le (.inr hfit))
  rw [length_firstRegs] at hframe
  have hexec := exec_ldMemVx_of_le hr
  exact ⟨_, hexec, fun r => byteAt_of_exec_ldMemVx hw hr hexec, rfl, hframe⟩

/-! ### Loads -/

/-- Each register of the block holds the byte at its own offset from `I` once `Fx65` has completed (R115). -/
theorem reg_of_exec_ldVxMem {x r : Nibble} {s t : State} (hx : s.index.toNat + x.toNat ≤ 0xFFF)
    (h : exec (.ldVxMem x) s = .next t) (hr : r.toNat ≤ x.toNat) :
    t.reg r = s.byteAt (s.index.toNat + r.toNat) := by
  have hblock : r.toNat < blockSize x := Nat.lt_succ_of_le hr
  obtain rfl := eq_of_next (exec_ldVxMem_of_le hx) h
  rw [advance_reg, setRegs_reg, List.getElem?_map, List.getElem?_range hblock]
  rfl

/-- Settles O27: in range the load is `exec_ldVxMem_of_le`, the registers above `Vx` are not the instruction's to write;
out of range it is the instruction's own condition. -/
theorem blockLoadReadsRegisters : Obligations.BlockLoadReadsRegisters := by
  unfold Obligations.BlockLoadReadsRegisters
  intro x s
  refine ⟨fun hx => ?_, fun hx => exec_of_ownCondition (if_pos hx)⟩
  have hexec := exec_ldVxMem_of_le hx
  exact ⟨_, hexec, fun r => reg_of_exec_ldVxMem hx hexec, rfl,
    onlyRegs_of_sameRegsBut fun r hr => exec_reg_of_not_writesReg hexec (decide_eq_false hr)⟩

/-- Settles O50: the load reads, at the `I` that the store kept, the bytes that the store wrote. -/
theorem storeThenLoadRestores : Obligations.StoreThenLoadRestores := by
  unfold Obligations.StoreThenLoadRestores
  intro x s t u hw hx hstore hmem hindex
  obtain ⟨t', hstore', -, -, -, hkept, -⟩ := (blockStoreWritesRegisters x s hw).1 hx
  obtain rfl := eq_of_next hstore' hstore
  have hbase : u.index = s.index := hindex.trans hkept
  obtain ⟨v, hload, hregs, -⟩ := (blockLoadReadsRegisters x u).1 (by rwa [hbase])
  refine ⟨v, hload, fun r hr => ?_⟩
  calc v.reg r = u.byteAt (u.index.toNat + r.toNat) := hregs r hr
    _ = t'.byteAt (s.index.toNat + r.toNat) := by rw [hbase, hmem]
    _ = s.reg r := byteAt_of_exec_ldMemVx hw hx hstore hr

/-! ### The index register -/

/-- An instruction whose meaning is a write of `I` and the advance of `PC`, once what is written is shown to be the value
of the rule. -/
theorem indexResult_of_setIndex {i : Instr} {written value : State → Word}
    (hi : ∀ s, exec i s = .next (s.setIndex (written s)).advance) (hvalue : ∀ s, written s = value s) :
    IndexResult i value :=
  fun s => ⟨_, hi s, hvalue s, rfl, fun _ => rfl, ⟨rfl, rfl⟩, ⟨rfl, rfl⟩, fun _ => rfl, ⟨rfl, rfl⟩,
    ⟨rfl, rfl, rfl, rfl⟩, rfl, rfl⟩

/-- Settles O23: the load is a write of `I`, `indexResult_of_setIndex`. -/
theorem indexLoadsImmediate : Obligations.IndexLoadsImmediate := by
  unfold Obligations.IndexLoadsImmediate
  intro nnn
  exact indexResult_of_setIndex (fun _ => rfl) fun _ => rfl

/-- The sum of a word and a byte is the exact sum modulo 65536 (R111). -/
theorem add_byteWord_eq_ofNat_mod (w : Word) (b : Byte) :
    w + byteWord b = BitVec.ofNat 16 ((w.toNat + b.toNat) % 65536) := by
  unfold byteWord
  bv_omega

/-- Five times a byte does not wrap at 16 bits (R112). -/
theorem toNat_five_mul_byteWord (b : Byte) : (5 * byteWord b).toNat = 5 * b.toNat := by
  unfold byteWord
  bv_omega

/-- Settles O24: both are writes of `I` (`indexResult_of_setIndex`), the first of a sum modulo 65536, the second of a
product that does not wrap. -/
theorem indexArithmetic : Obligations.IndexArithmetic := by
  unfold Obligations.IndexArithmetic
  intro x
  refine ⟨indexResult_of_setIndex (fun _ => rfl) fun s => add_byteWord_eq_ofNat_mod _ _,
    indexResult_of_setIndex (fun _ => rfl) fun s => ?_, fun s t h => ?_⟩
  · rw [← toNat_five_mul_byteWord, BitVec.ofNat_toNat, BitVec.setWidth_eq]
  · obtain rfl := Host.Outcome.next.inj h
    exact toNat_five_mul_byteWord (s.reg x)

end Sys2Proof.Machine
end

section
/-! PROOFS. Framebuffer instructions (spec/43_display.md R120 to R123): the cleared screen, the pixels and the flag of a
draw, and the same sprite drawn twice. -/

namespace Sys2Proof.Machine

/-! ### The pixels a sprite toggles -/

/-- The pixels the rows of a sprite toggle, the first of them being row `r`: those under its set bits (R121).
`drawRows_pixel` and `drawRows_hit` tie it to the model. -/
def spriteTargets (x0 y0 : Byte) (r : Nat) (rows : List Byte) : List (Fin 64 × Fin 32) :=
  (rows.zipIdx r).flatMap fun row => (rowTargets x0 row.1).map fun px => (px, screenRow y0 row.2)

/-- The pixels of a sprite are those of its top row and those of the rows below. -/
theorem spriteTargets_cons (x0 y0 : Byte) (r : Nat) (row : Byte) (rows : List Byte) :
    spriteTargets x0 y0 r (row :: rows) =
      ((rowTargets x0 row).map fun px => (px, screenRow y0 r)) ++ spriteTargets x0 y0 (r + 1) rows := by
  simp [spriteTargets]

/-- Which pixels a sprite toggles: its rows are numbered from `r`. -/
theorem mem_spriteTargets {x0 y0 : Byte} {r : Nat} {rows : List Byte} {px : Fin 64} {py : Fin 32} :
    (px, py) ∈ spriteTargets x0 y0 r rows ↔
      ∃ row k, (r ≤ k ∧ rows[k - r]? = some row) ∧ px ∈ rowTargets x0 row ∧ py = screenRow y0 k := by
  simp [spriteTargets, List.mk_mem_zipIdx_iff_le_and_getElem?_sub, eq_comm]

/-- No row of a sprite of at most 32 rows wraps onto its top row. -/
theorem screenRow_ne_of_mem_spriteTargets {x0 y0 : Byte} {r : Nat} {rows : List Byte} {px : Fin 64} {py : Fin 32}
    (hlen : rows.length < 32) (h : (px, py) ∈ spriteTargets x0 y0 (r + 1) rows) : screenRow y0 r ≠ py := by
  obtain ⟨row, k, ⟨hk, hrow⟩, -, rfl⟩ := mem_spriteTargets.1 h
  obtain ⟨hlt, -⟩ := List.getElem?_eq_some_iff.1 hrow
  intro heq
  have hmod : (y0.toNat + r) % 32 = (y0.toNat + k) % 32 := congrArg Fin.val heq
  omega

/-! ### The rows of a sprite drawn in turn -/

/-- Rows drawn in turn toggle exactly their pixels: a pixel of one row is in no other. -/
theorem drawRows_pixel (x0 y0 : Byte) (qx : Fin 64) (qy : Fin 32) (rows : List Byte) (hlen : rows.length ≤ 32) :
    ∀ r acc, (drawRows x0 y0 r rows acc).1.pixel qx qy =
      (acc.1.pixel qx qy ^^ decide ((qx, qy) ∈ spriteTargets x0 y0 r rows)) := by
  induction rows with
  | nil => simp [drawRows, spriteTargets]
  | cons row rows ih =>
    intro r acc
    obtain ⟨hrow, -⟩ := foldl_drawPixel (screenRow y0 r) _ (rowTargets_nodup x0 row) acc
    rw [drawRows, ih (Nat.le_of_succ_le hlen), hrow, Bool.xor_assoc, spriteTargets_cons]
    congr 1
    by_cases hbelow : (qx, qy) ∈ spriteTargets x0 y0 (r + 1) rows
    · have hne := screenRow_ne_of_mem_spriteTargets hlen hbelow
      simp [hbelow, hne]
    · simp [hbelow]

/-- Rows drawn in turn report whether one of their pixels was set before the first of them: a row leaves the pixels of
the rows below as they were. -/
theorem drawRows_hit (x0 y0 : Byte) (rows : List Byte) (hlen : rows.length ≤ 32) :
    ∀ r acc, (drawRows x0 y0 r rows acc).2 =
      (acc.2 || (spriteTargets x0 y0 r rows).any fun p => acc.1.pixel p.1 p.2) := by
  induction rows with
  | nil => simp [drawRows, spriteTargets]
  | cons row rows ih =>
    intro r acc
    obtain ⟨hrow, hhit⟩ := foldl_drawPixel (screenRow y0 r) _ (rowTargets_nodup x0 row) acc
    rw [drawRows, ih (Nat.le_of_succ_le hlen), hhit, Bool.or_assoc, spriteTargets_cons, List.any_append, List.any_map]
    congr 2
    rw [Bool.eq_iff_iff, List.any_eq_true, List.any_eq_true]
    refine exists_congr fun ⟨px, py⟩ => and_congr_right fun hbelow => ?_
    have hne := screenRow_ne_of_mem_spriteTargets hlen hbelow
    simp [hrow, hne]

/-! ### The state a draw leaves -/

/-- The bytes of the `n`-row sprite at `I`, top row first (R121). -/
def State.spriteRows (s : State) (n : Nibble) : List Byte :=
  (List.range n.toNat).map fun j => s.byteAt (s.index.toNat + j)

/-- A sprite has fewer rows than the screen. -/
theorem length_spriteRows_le (s : State) (n : Nibble) : (s.spriteRows n).length ≤ 32 := by
  have hn := n.isLt
  simp only [State.spriteRows, List.length_map, List.length_range]
  omega

/-- The pixels a draw toggles are those `SpriteCovers` names. -/
theorem mem_spriteTargets_spriteRows {s : State} {x y n : Nibble} {px : Fin 64} {py : Fin 32} :
    (px, py) ∈ spriteTargets (s.reg x) (s.reg y) 0 (s.spriteRows n) ↔ SpriteCovers s x y n px py := by
  rw [mem_spriteTargets]
  constructor
  · rintro ⟨row, r, ⟨-, hrow⟩, hpx, rfl⟩
    obtain ⟨c, hc, hbit, rfl⟩ := (mem_rowTargets _ _ _).1 hpx
    obtain ⟨hr, rfl⟩ : r < n.toNat ∧ s.byteAt (s.index.toNat + r) = row := by
      simpa [State.spriteRows, List.getElem?_eq_some_iff] using hrow
    exact ⟨r, hr, c, hc, hbit, rfl, rfl⟩
  · rintro ⟨r, hr, c, hc, hbit, hpx, hpy⟩
    refine ⟨s.byteAt (s.index.toNat + r), r, ⟨Nat.zero_le r, ?_⟩, ?_, Fin.ext hpy⟩
    · simp [State.spriteRows, hr]
    · exact (mem_rowTargets _ _ _).2 ⟨c, hc, hbit, Fin.ext hpx⟩

/-- A pixel after a draw: toggled when it is one of the sprite's, else kept (R121). -/
theorem afterDraw_pixel (s : State) (x y n : Nibble) (px : Fin 64) (py : Fin 32) :
    (s.afterDraw x y (s.spriteRows n)).fb.pixel px py =
      (s.fb.pixel px py ^^ decide ((px, py) ∈ spriteTargets (s.reg x) (s.reg y) 0 (s.spriteRows n))) :=
  drawRows_pixel _ _ px py _ (length_spriteRows_le s n) 0 (s.fb, false)

/-- Some pixel under a set sprite bit is set: the condition of a collision (R121). -/
def Collides (s : State) (x y n : Nibble) : Prop := ∃ px py, SpriteCovers s x y n px py ∧ s.fb.pixel px py = true

/-- A draw reports a collision exactly when there is one. -/
theorem drawSprite_hit_iff (s : State) (x y n : Nibble) :
    (drawSprite s.fb (s.reg x) (s.reg y) (s.spriteRows n)).2 = true ↔ Collides s x y n := by
  simp [drawSprite, drawRows_hit _ _ _ (length_spriteRows_le s n), mem_spriteTargets_spriteRows, Collides]

/-- `VF` after a draw is the flag of its collision (R121). -/
theorem afterDraw_flag (s : State) (x y : Nibble) (rows : List Byte) :
    (s.afterDraw x y rows).reg 0xF#4 = flagByte (drawSprite s.fb (s.reg x) (s.reg y) rows).2 := by
  simp [State.afterDraw]

/-- A draw changes pixels, `dirty`, `VF` and `PC` only. -/
theorem afterDraw_onlyDisplay (s : State) (x y : Nibble) (rows : List Byte) :
    OnlyDisplay (· = 0xF#4) s (s.afterDraw x y rows) :=
  ⟨fun _ hr => (setFlag_reg s _ _).trans (if_neg (Ne.symm hr)), rfl, ⟨rfl, rfl⟩, ⟨rfl, rfl⟩, fun _ => rfl,
    ⟨rfl, rfl, rfl, rfl⟩, rfl, rfl⟩

/-! ### The instructions -/

/-- Settles O28: the clear is a write of the screen, every pixel of which is 0 (`pixel_clear`). -/
theorem clearScreenClearsAll : Obligations.ClearScreenClearsAll := by
  unfold Obligations.ClearScreenClearsAll
  intro s
  exact ⟨_, rfl, pixel_clear, rfl, rfl, fun _ _ => rfl, rfl, ⟨rfl, rfl⟩, ⟨rfl, rfl⟩, fun _ => rfl,
    ⟨rfl, rfl, rfl, rfl⟩, rfl, rfl⟩

/-- Settles O29: in range the draw is `exec_drw_of_le`, its pixels by `afterDraw_pixel` and its flag by
`drawSprite_hit_iff`; out of range it is the instruction's own condition. -/
theorem drawTogglesSprite : Obligations.DrawTogglesSprite := by
  unfold Obligations.DrawTogglesSprite
  intro x y n s
  refine ⟨fun hr => ?_, fun hn hr => exec_of_ownCondition (if_pos ⟨hn, hr⟩)⟩
  refine ⟨s.afterDraw x y (s.spriteRows n), exec_drw_of_le hr x y, fun px py hc => ?_, fun px py hc => ?_,
    fun hcollides => ?_, fun hcollides => ?_, rfl, rfl, afterDraw_onlyDisplay s x y _⟩
  · rw [afterDraw_pixel, decide_eq_true (mem_spriteTargets_spriteRows.2 hc), Bool.xor_true]
  · rw [afterDraw_pixel, decide_eq_false (mt mem_spriteTargets_spriteRows.1 hc), Bool.xor_false]
  · rw [afterDraw_flag, (drawSprite_hit_iff s x y n).2 hcollides]
    rfl
  · rw [afterDraw_flag, Bool.eq_false_iff.2 (mt (drawSprite_hit_iff s x y n).1 hcollides)]
    rfl

/-- A draw leaves the pixels under a set bit of its sprite where they were, its coordinates not being in `VF`. -/
theorem spriteCovers_of_onlyDisplay {s t : State} {x y : Nibble} (h : OnlyDisplay (· = 0xF#4) s t) (hx : x ≠ 0xF#4)
    (hy : y ≠ 0xF#4) (n : Nibble) (px : Fin 64) (py : Fin 32) :
    SpriteCovers t x y n px py ↔ SpriteCovers s x y n px py := by
  obtain ⟨hregs, hindex, -, -, hmem, -⟩ := h
  have hbyte : ∀ a, t.byteAt a = s.byteAt a := hmem
  simp only [SpriteCovers, hregs x hx, hregs y hy, hindex, hbyte]

/-- Settles O30, by `drawTogglesSprite` twice: both draws have the same pixels (`spriteCovers_of_onlyDisplay`), and on
an empty place the second finds set what the first has toggled. -/
theorem drawTwiceRestores : Obligations.DrawTwiceRestores := by
  unfold Obligations.DrawTwiceRestores
  intro x y n s hx hy hr
  obtain ⟨t, ht, hton, htoff, -, htclear, -, -, hframe⟩ := (drawTogglesSprite x y n s).1 hr
  have hsame := spriteCovers_of_onlyDisplay hframe hx hy n
  obtain ⟨-, hindex, -⟩ := hframe
  obtain ⟨u, hu, huon, huoff, huset, huclear, -⟩ := (drawTogglesSprite x y n t).1 (by rwa [hindex])
  refine ⟨t, u, ht, hu, fb_ext fun px py => ?_, fun hempty => ⟨htclear ?_, fun hflag => ?_, fun hcovers => huset ?_⟩⟩
  · by_cases hc : SpriteCovers s x y n px py
    · rw [huon px py ((hsame px py).2 hc), hton px py hc, Bool.not_not]
    · rw [huoff px py (mt (hsame px py).1 hc), htoff px py hc]
  · rintro ⟨px, py, hc, hset⟩
    exact Bool.false_ne_true ((hempty px py hc).symm.trans hset)
  · by_contra hnone
    have hzero : u.reg 0xF#4 = 0 := huclear fun ⟨px, py, hc, _⟩ => hnone ⟨px, py, (hsame px py).1 hc⟩
    exact absurd (hflag.symm.trans hzero) (by decide)
  · obtain ⟨px, py, hc⟩ := hcovers
    refine ⟨px, py, (hsame px py).2 hc, ?_⟩
    rw [hton px py hc, hempty px py hc, Bool.not_false]

end Sys2Proof.Machine
end

section
/-! PROOFS. Key input and timer access (spec/44_keys_timers.md R130 to R135): the key a skip tests, the key the wait takes,
the timer each access reads or writes, and the frame of each. -/

namespace Sys2Proof.Machine

/-! ### Keys -/

/-- Settles O31: with a code in range the skips are `exec_skp_of_le` and `exec_sknp_of_le`, and with none each raises its
own condition. -/
theorem keySkipsTestOneKey : Obligations.KeySkipsTestOneKey := by
  unfold Obligations.KeySkipsTestOneKey
  intro x s
  refine ⟨fun hx => ⟨?_, ?_⟩, fun hx => ?_⟩
  · exact ⟨_, exec_skp_of_le hx, setPc_onlyPc s _, rfl⟩
  · refine ⟨_, exec_sknp_of_le hx, setPc_onlyPc s _, ?_⟩
    simp only [skipIf_pc, State.keyDown, Bool.not_eq_true']
  · exact ⟨exec_of_ownCondition (if_pos hx), exec_of_ownCondition (if_pos hx)⟩

/-- Settles O32: what `Fx0A` does turns on the scan for a key, which finds none (`firstKey_none`) or the lowest one down
(`firstKey_some`), whose code is then written to the one register. -/
theorem waitForKeyTakesLowest : Obligations.WaitForKeyTakesLowest := by
  unfold Obligations.WaitForKeyTakesLowest
  intro x s
  refine ⟨fun hnone => exec_ldVxK_of_none ((firstKey_none s).2 hnone) x, fun hdown => ?_⟩
  obtain ⟨k, hk⟩ := Option.ne_none_iff_exists'.1 (mt (firstKey_none s).1 hdown)
  obtain ⟨hlt, hset, hlowest⟩ := (firstKey_some s k).1 hk
  refine ⟨k, _, hlt, hset, hlowest, exec_ldVxK_of_some hk x, ?_, rfl, setReg_advance_onlyRegs s x _⟩
  rw [advance_reg, setReg_reg, if_pos rfl, BitVec.toNat_ofNat, Nat.mod_eq_of_lt (hlt.trans (by decide))]

/-! ### Timers -/

/-- A state in which the timers and `PC` alone are new is within the frame of the timers. -/
theorem timersAndPc_onlyTimers (s : State) (delay sound : Byte) (p : Word) :
    OnlyTimers s { s with delayTimer := delay, soundTimer := sound, pc := p } :=
  ⟨fun _ => rfl, rfl, ⟨rfl, rfl⟩, fun _ => rfl, ⟨rfl, rfl⟩, ⟨rfl, rfl, rfl, rfl⟩, rfl, rfl⟩

/-- Settles O33: the read is a write of one register (`regResult_of_setReg`), and each of the others writes its own timer
alone. -/
theorem timerInstructions : Obligations.TimerInstructions := by
  unfold Obligations.TimerInstructions
  intro x
  refine ⟨regResult_of_setReg fun _ => rfl, fun s => ?_, fun s => ?_⟩
  · exact ⟨_, rfl, rfl, rfl, rfl, timersAndPc_onlyTimers s _ _ _⟩
  · exact ⟨_, rfl, rfl, rfl, rfl, timersAndPc_onlyTimers s _ _ _⟩

end Sys2Proof.Machine
end

section
/-! PROOFS. The fatal conditions and the operations of the host that run no instruction (spec/60_exceptions.md R140 to
R155): what stops a cycle and what it reports, what leaves the halt, what `Tick` and `DisplayConsume` change. -/

namespace Sys2Proof.Machine

/-! ### Taking a fatal condition -/

/-- Settles O36: `raise` writes the report; with the report put back, each other piece of state is as before. -/
theorem raiseWritesReportOnly : Obligations.RaiseWritesReportOnly := by
  unfold Obligations.RaiseWritesReportOnly
  intro s c w
  refine ⟨rfl, rfl, rfl, by cases c <;> rfl, rfl, ?_⟩
  exact ⟨fun _ => rfl, rfl, ⟨rfl, rfl⟩, ⟨rfl, rfl⟩, fun _ => rfl, ⟨rfl, rfl⟩, ⟨rfl, rfl, rfl, rfl⟩, rfl, rfl⟩

/-- An instruction whose own condition does not hold completes, and leaves the report registers (R22, R141). -/
theorem exec_sameReport_of_none {i : Instr} {s : State} (h : ownCondition i s = none) :
    ∃ t, exec i s = .next t ∧ SameReport s t := by
  cases i with
  | cls | jp | seImm | sneImm | seReg | ldImm | addImm | ldReg | or | and | xor | addReg | sub | shr | subn | shl
  | sneReg | ldI | jpV0 | rnd | ldVxDt | ldDtVx | ldStVx | addI | ldF => exact ⟨_, rfl, rfl, rfl, rfl, rfl⟩
  | ldVxK x =>
    cases hk : s.firstKey with
    | none => exact ⟨s, exec_ldVxK_of_none hk x, rfl, rfl, rfl, rfl⟩
    | some k => exact ⟨_, exec_ldVxK_of_some hk x, rfl, rfl, rfl, rfl⟩
  | ret => exact ⟨_, exec_ret_of_pos (by simpa [ownCondition] using h), rfl, rfl, rfl, rfl⟩
  | call nnn =>
    have hs : s.sp.val ≠ 16 := by simpa [ownCondition] using h
    exact ⟨_, exec_call_of_lt (by omega) nnn, rfl, rfl, rfl, rfl⟩
  | drw x y n =>
    have hs : n.toNat > 0 → s.index.toNat + n.toNat - 1 ≤ 0xFFF := by simpa [ownCondition] using h
    exact ⟨_, exec_drw_of_le (by omega) x y, rfl, rfl, rfl, rfl⟩
  | ldB x => exact ⟨_, exec_ldB_of_le (by simpa [ownCondition] using h) x, rfl, rfl, rfl, rfl⟩
  | ldMemVx x => exact ⟨_, exec_ldMemVx_of_le (by simpa [ownCondition] using h), rfl, rfl, rfl, rfl⟩
  | ldVxMem x => exact ⟨_, exec_ldVxMem_of_le (by simpa [ownCondition] using h), rfl, rfl, rfl, rfl⟩
  | skp x => exact ⟨_, exec_skp_of_le (by simpa [ownCondition] using h), rfl, rfl, rfl, rfl⟩
  | sknp x => exact ⟨_, exec_sknp_of_le (by simpa [ownCondition] using h), rfl, rfl, rfl, rfl⟩

/-- Settles O35: with its own condition an instruction is `raise` (`exec_of_ownCondition`), and without it the report
registers stay (`exec_sameReport_of_none`). -/
theorem instructionsRaiseExactlyTheirOwn : Obligations.InstructionsRaiseExactlyTheirOwn := by
  unfold Obligations.InstructionsRaiseExactlyTheirOwn
  exact fun i s => ⟨fun _ => exec_of_ownCondition, exec_sameReport_of_none⟩

/-! ### What stops a cycle -/

/-- A cycle of a halted machine changes nothing (R145). -/
theorem cycle_of_halted {s : State} (h : s.halted = true) : cycle s = .next s := if_pos h

/-- A cycle of a running machine with no word to fetch is a fetch fault (R144). -/
theorem cycle_of_fetch_none {s : State} (hrun : s.halted = false) (hf : s.fetch = none) :
    cycle s = .next (s.raise .memoryRange 0) := by
  simp [cycle, hrun, hf]

/-- A cycle of a running machine whose word is outside the opcode table is a decode failure (R69). -/
theorem cycle_of_decode_error {s : State} {w : Word} {e : Reject} (hrun : s.halted = false) (hf : s.fetch = some w)
    (hd : decodeWord w = .error e) : cycle s = .next (s.raise .decodeFailure w) := by
  simp [cycle, hrun, hf, decodeAndExecute, hd]

/-- Settles O3, gate by gate: `cycle_of_halted`, `cycle_of_fetch_none`, `cycle_of_decode_error`. -/
theorem cycleGatesInOrder : Obligations.CycleGatesInOrder := by
  unfold Obligations.CycleGatesInOrder
  exact fun s => ⟨cycle_of_halted, fun hrun hpc => cycle_of_fetch_none hrun (fetch_of_gt hpc),
    fun hrun hpc _ hd => cycle_of_decode_error hrun (fetch_of_le hpc) hd⟩

/-- An instruction that halts a running machine raised its own condition (R141). -/
theorem exec_halts {i : Instr} {s t : State} (hrun : s.halted = false) (h : exec i s = .next t)
    (hhalt : t.halted = true) : ∃ c, ownCondition i s = some c ∧ t = s.raise c (encode i) := by
  cases hc : ownCondition i s with
  | some c => exact ⟨c, rfl, eq_of_next h (exec_of_ownCondition hc)⟩
  | none =>
    obtain ⟨u, hu, hsame, -⟩ := exec_sameReport_of_none hc
    obtain rfl := eq_of_next h hu
    simp [hsame, hrun] at hhalt

/-- Settles O37: the cases of a cycle of a running machine (`cycle_cases`); an instruction that halts it raised its own
condition (`exec_halts`), with the fetched word, which is its encoding. -/
theorem cycleHaltsOnlyForCause : Obligations.CycleHaltsOnlyForCause := by
  unfold Obligations.CycleHaltsOnlyForCause
  intro s t hrun h hhalt
  obtain ⟨hs, -⟩ | ⟨-, hf, hc⟩ | ⟨-, w, e, hf, hd, hc⟩ | ⟨-, w, i, hf, hd, hc⟩ := cycle_cases s
  · simp [hrun] at hs
  · exact .inl ⟨hf, eq_of_next h hc⟩
  · exact .inr (.inl ⟨w, e, hf, hd, eq_of_next h hc⟩)
  · obtain ⟨c, hown, ht⟩ := exec_halts hrun (hc.symm.trans h) hhalt
    rw [encode_of_decodeWord hd] at ht
    exact .inr (.inr ⟨w, i, c, hf, hd, hown, ht⟩)

/-- Settles O47: an instruction by `exec_next`, a step by its operation (`step_cases`), a cycle by `cycle_next`. -/
theorem stepAlwaysAnswers : Obligations.StepAlwaysAnswers := by
  unfold Obligations.StepAlwaysAnswers
  refine ⟨exec_next, fun s => ?_⟩
  obtain ⟨k, r, -, hc⟩ | ⟨-, hc⟩ | ⟨-, -, hc⟩ | ⟨hop, hclear, -⟩ | ⟨image, -, hc⟩ := step_cases s
  · exact .inl (hc ▸ cycle_next _)
  · exact .inl ⟨_, hc⟩
  · exact .inl ⟨_, hc⟩
  · exact .inr ⟨hop, hclear⟩
  · exact .inl ⟨_, hc⟩

/-! ### Tick -/

/-- A step whose operation is a `Tick` (R152). -/
theorem step_of_tick {s : State} (h : s.nextOp = .tick) : step s = .next s.opTaken.tick := by
  simp [step, h, perform]

/-- One step of the counter is the subtraction of 1 that stops at 0 (R152). -/
theorem toNat_countDown (b : Byte) : (countDown b).toNat = b.toNat - 1 := by
  unfold countDown
  split <;> bv_omega

/-- Settles O42: each timer by `toNat_countDown`; a tick writes nothing else. -/
theorem tickDecrementsBothTimers : Obligations.TickDecrementsBothTimers := by
  unfold Obligations.TickDecrementsBothTimers
  intro s hop
  refine ⟨_, step_of_tick hop, ?_, ?_, ?_⟩
  · rw [tick_delayTimer, toNat_countDown, opTaken_delayTimer]
  · rw [tick_soundTimer, toNat_countDown, opTaken_soundTimer]
  · rw [opTaken_eq]
    exact ⟨fun _ => rfl, rfl, rfl, ⟨rfl, rfl⟩, fun _ => rfl, ⟨rfl, rfl⟩, ⟨rfl, rfl, rfl, rfl⟩, rfl⟩

/-- `n` steps of the counter are the subtraction of `n` that stops at 0 (R152). -/
theorem toNat_iterate_countDown (n : Nat) (b : Byte) : (countDown^[n] b).toNat = b.toNat - n := by
  induction n with
  | zero => rfl
  | succ n ih => rw [Function.iterate_succ_apply', toNat_countDown, ih, Nat.sub_sub]

/-- Settles O43: over `n` ticks each timer runs through `n` steps of the counter, `toNat_iterate_countDown`. -/
theorem ticksSaturateAtZero : Obligations.TicksSaturateAtZero := by
  unfold Obligations.TicksSaturateAtZero
  intro n s
  have hdelay : Function.Semiconj State.delayTimer State.tick countDown := tick_delayTimer
  have hsound : Function.Semiconj State.soundTimer State.tick countDown := tick_soundTimer
  rw [hdelay.iterate_right n s, hsound.iterate_right n s]
  exact ⟨toNat_iterate_countDown n _, toNat_iterate_countDown n _⟩

/-! ### DisplayConsume -/

/-- A step whose operation is a `DisplayConsume` that is enabled (R155). -/
theorem step_of_displayConsume {s : State} (h : s.nextOp = .displayConsume) (hd : s.dirty = true) :
    step s = .next s.opTaken.consumed := by
  simp [step, h, perform, hd]

/-- A step whose operation is a `DisplayConsume` that is not enabled (R155). -/
theorem step_of_displayConsume_clear {s : State} (h : s.nextOp = .displayConsume) (hd : s.dirty = false) :
    step s = .fault .consumeNotEnabled := by
  simp [step, h, perform, hd]

/-- An enabled `DisplayConsume` hands out the framebuffer (R155). -/
theorem hostReturn_displayConsume {s : State} (h : s.dirty = true) :
    hostReturn .displayConsume s = .picture s.fb := if_pos h

/-- Settles O44: enabled it is `hostReturn_displayConsume` and a write of `dirty` alone; otherwise it is
`step_of_displayConsume_clear`. -/
theorem displayConsumeClearsDirty : Obligations.DisplayConsumeClearsDirty := by
  unfold Obligations.DisplayConsumeClearsDirty
  intro s hop
  refine ⟨fun hd => ⟨hostReturn_displayConsume hd, _, step_of_displayConsume hop hd, rfl, ?_⟩,
    step_of_displayConsume_clear hop⟩
  rw [opTaken_eq]
  exact ⟨fun _ => rfl, rfl, rfl, ⟨rfl, rfl⟩, ⟨rfl, rfl⟩, fun _ => rfl, rfl, ⟨rfl, rfl, rfl, rfl⟩, rfl⟩

/-! ### Leaving the halt -/

/-- A step of a halted machine whose operation is a `Cycle` takes the operation and its inputs and nothing more (R145). -/
theorem step_of_cycle_of_halted {s : State} {k : Keys} {r : Byte} (hop : s.nextOp = .cycle k r)
    (hhalt : s.halted = true) : step s = .next { s with host := (s.opTaken.present k r).host } := by
  rw [step_of_cycle hop, cycle_of_halted (by simpa using hhalt), State.present, opTaken_eq]

/-- A reset leaves the halt and clears its report (R146, R170). -/
theorem resetWith_running (s : State) (image : List Byte) :
    (s.resetWith image).halted = false ∧ (s.resetWith image).faultCause = 0 := by
  rw [resetWith_eq]
  exact ⟨rfl, rfl⟩

/-- Settles O38, operation by operation of the host: a cycle by `step_of_cycle_of_halted`, a tick and a consumption by
what they keep (`tickDecrementsBothTimers`, `displayConsumeClearsDirty`), a reset by `resetWith_running`. -/
theorem haltIsLeftByResetOnly : Obligations.HaltIsLeftByResetOnly := by
  unfold Obligations.HaltIsLeftByResetOnly
  intro s t hhalt h
  refine ⟨fun ⟨image, hop⟩ => ?_, fun hreset => ?_⟩
  · obtain rfl := eq_of_next (step_of_reset hop) h
    exact resetWith_running _ _
  · cases hop : s.nextOp with
    | cycle k r =>
      obtain rfl := eq_of_next (step_of_cycle_of_halted hop hhalt) h
      exact ⟨⟨rfl, rfl, rfl, rfl⟩, fun _ => rfl, rfl, rfl, ⟨rfl, rfl⟩, fun _ => rfl, rfl, fun _ => ⟨rfl, rfl⟩,
        fun _ => rfl⟩
    | tick =>
      obtain ⟨u, hu, -, -, hregs, hindex, hpc, hstack, hmem, ⟨hfb, hdirty⟩, hreport, -⟩ :=
        tickDecrementsBothTimers s hop
      obtain rfl := eq_of_next hu h
      exact ⟨hreport, hregs, hindex, hpc, hstack, hmem, hfb, fun hne => absurd rfl hne, fun _ => hdirty⟩
    | displayConsume =>
      obtain ⟨henabled, hclear⟩ := displayConsumeClearsDirty s hop
      cases hd : s.dirty with
      | false => cases (hclear hd).symm.trans h
      | true =>
        obtain ⟨-, u, hu, -, hregs, hindex, hpc, hstack, htimers, hmem, hfb, hreport, -⟩ := henabled hd
        obtain rfl := eq_of_next hu h
        exact ⟨hreport, hregs, hindex, hpc, hstack, hmem, hfb, fun _ => htimers, fun hne => absurd rfl hne⟩
    | reset image => exact absurd hop (hreset image)

end Sys2Proof.Machine
end

section
/-! PROOFS. `Initialize` and `Reset` (spec/70_reset_and_hazards.md R170 to R175): the reset values of the core, the font, the
image in memory, and what the load returns. -/

namespace Sys2Proof.Machine

/-! ### Initialize -/

/-- Every piece of the core right after `Initialize` is at its reset value, whatever `FONT` (R25, R170). -/
theorem coreAtReset_atReset (f : Font) : CoreAtReset (State.atReset f) := by
  refine ⟨fun r => ?_, rfl, rfl, rfl, fun k => ?_, rfl, rfl, pixel_clear, rfl, rfl, rfl, rfl, rfl⟩
  · simp [State.reg, State.atReset]
  · simp [State.atReset]

/-- Above the font `Initialize` leaves 0 (R41). -/
theorem initial_of_le {a : Nat} (h : Config.fontSize ≤ a) (f : Font) : Memory.initial f a = 0 :=
  dif_neg (Nat.not_lt_of_le h)

/-- What `Initialize` sets: the core, the parameter `FONT` at the addresses of the font, 0 above it (R170). -/
theorem atReset_sets_everything (f : Font) :
    CoreAtReset (State.atReset f) ∧ (State.atReset f).font = f ∧
      (∀ a : Nat, (h : a < Config.fontSize) → (State.atReset f).byteAt a = f[a]) ∧
      (∀ a : Nat, 0x50 ≤ a → (State.atReset f).byteAt a = 0) :=
  ⟨coreAtReset_atReset f, rfl, fun a h => (atReset_byteAt f a).trans (initial_of_lt h f),
    fun a h => (atReset_byteAt f a).trans (initial_of_le h f)⟩

/-- Settles O5, by `atReset_sets_everything`: each of the three states is `State.atReset` but for the host's side, which
the statement does not speak of. -/
theorem initializeSetsEverything : Obligations.InitializeSetsEverything := by
  unfold Obligations.InitializeSetsEverything
  refine ⟨rfl, ?_⟩
  rintro s f t (⟨rfl, rfl⟩ | rfl | ⟨rfl, rfl⟩)
  · exact atReset_sets_everything s.font
  · exact atReset_sets_everything f
  · exact atReset_sets_everything defaultFont

/-! ### Reset -/

/-- A reset leaves every piece of the core at its reset value, whatever the image (R171). -/
theorem resetWith_coreAtReset (s : State) (image : List Byte) : CoreAtReset (s.resetWith image) := by
  rw [resetWith_eq]
  exact coreAtReset_atReset s.font

/-- A reset is the core's: the host's side stays (R171). -/
theorem resetWith_host (s : State) (image : List Byte) : (s.resetWith image).host = s.host := by
  rw [resetWith_eq]

/-- An image that fits is loaded, and its length returned (R172). -/
theorem loadResult_of_le {image : List Byte} (h : image.length ≤ Config.romMax) :
    loadResult image = .loaded image.length := if_neg (Nat.not_lt_of_le h)

/-- An image that is too long is refused (R172). -/
theorem loadResult_of_gt {image : List Byte} (h : image.length > Config.romMax) : loadResult image = .loadError := if_pos h

/-- A refused image leaves the machine as `Initialize` made it (R172). -/
theorem resetWith_of_gt {image : List Byte} (h : image.length > Config.romMax) (s : State) :
    s.resetWith image = s.initialized := by
  rw [State.resetWith, loadResult_of_gt h]

/-- An image that fits reads as its own bytes from 0x200 on; around it memory is as `Initialize` left it (R48, R172). -/
theorem resetWith_byteAt_of_le {image : List Byte} (h : image.length ≤ Config.romMax) (s : State) (a : Nat) :
    (s.resetWith image).byteAt a =
      if Config.progBase ≤ a ∧ a < Config.progBase + image.length then image.getD (a - Config.progBase) 0
      else Memory.initial s.font a := by
  by_cases hlow : a < Config.progBase
  · rw [resetWith_byteAt_of_lt hlow, if_neg (fun ⟨hbase, _⟩ => Nat.not_le_of_lt hlow hbase)]
  · have hbase : Config.progBase ≤ a := Nat.le_of_not_lt hlow
    have hfit : Config.progBase + image.length ≤ Config.memSize := Nat.add_le_add_left h Config.progBase
    have hread : (s.resetWith image).byteAt a = (image[a - Config.progBase]?).getD (Memory.initial s.font a) := by
      rw [State.resetWith, loadResult_of_le h]
      exact (read_writeBytes image rfl hfit a).trans (if_pos hbase)
    rw [hread]
    split_ifs with hin
    · have hj : a - Config.progBase < image.length := by omega
      rw [List.getD_eq_getElem?_getD, List.getElem?_eq_getElem hj, Option.getD_some, Option.getD_some]
    · have hj : image.length ≤ a - Config.progBase := by omega
      rw [List.getElem?_eq_none hj, Option.getD_none]

/-- Settles O45: the core by `resetWith_coreAtReset`; memory and the value returned by `resetWith_byteAt_of_le` and
`loadResult_of_le` for an image that fits, by `resetWith_of_gt` and `loadResult_of_gt` for one that does not. -/
theorem resetLoadsImage : Obligations.ResetLoadsImage := by
  unfold Obligations.ResetLoadsImage
  intro s image hop
  refine ⟨_, step_of_reset hop, resetWith_coreAtReset _ _, resetWith_host _ _, ?_, fun hfit => ⟨?_, fun a => ?_⟩,
    fun hlong => ⟨?_, fun a => ?_⟩⟩
  · exact (resetWith_font _ _).trans (opTaken_font s)
  · exact congrArg HostReturn.load (loadResult_of_le hfit)
  · rw [resetWith_byteAt_of_le hfit, opTaken_font, initialized_byteAt]
    rfl
  · exact congrArg HostReturn.load (loadResult_of_gt hlong)
  · rw [resetWith_of_gt hlong, initialized_byteAt, initialized_byteAt, opTaken_font]

end Sys2Proof.Machine
end

section
/-! PROOFS. The words that spec/95_test_vectors.md writes out, through the round trip of the decoder. -/

namespace Sys2Proof

/-- Settles O1: a legal word is the encoding of the instruction named for it, so it decodes to that instruction
(`decodeWord_encode`; `decode_encodeBytes` for the byte order of E2). The two words of section 2.9 match no row of their
family, and the decoder runs to the error. -/
theorem specWordsDecode : Obligations.SpecWordsDecode := by
  unfold Obligations.SpecWordsDecode
  refine ⟨decodeWord_encode (.jp 0x234), decode_encodeBytes (.seImm 4 0x12) [], decodeWord_encode (.addReg 0xA 0xB),
    decodeWord_encode (.drw 1 2 15), decodeWord_encode (.ldVxK 7), decodeWord_encode (.skp 0), decodeWord_encode .ret,
    ?family0, ?family8⟩
  case family0 => rfl
  case family8 => rfl

end Sys2Proof
end
